-- ==== Sys2Proof/Word.lean ====
section
/-! DEFINITION. The one word type of the machine: every register, cell, address, flag byte and operand is 8 bits wide
(`00_scope.md` R4 `XLEN`, R5). -/

namespace Sys2Proof

/-- A byte, read as an unsigned number 0 to 255 everywhere (R5, D10). -/
abbrev Byte := BitVec 8

end Sys2Proof
end

