-- ==== Sys2Proof/Config.lean ====
section
/-! DEFINITION. The implementation parameters of `00_scope.md` R4. `CALL_OPCODE` is kept with the encodings, in
`Sys2Proof.callOpcode` (`Decode.lean`), and `MEM_INIT` is an argument of `State.resetFrom`. -/

namespace Sys2Proof.Config

/-- `MEM_SIZE`: number of memory cells, so addresses are 0 to 255 (R4, R11). -/
def memSize : Nat := 256

/-- `SP_INDEX`: the register that is the stack pointer (R4, R13). The register file has `NREG` = 8 entries. -/
def spIndex : Fin 8 := 7

/-- `SP_RESET`: value of register 7 after reset (R4, R25). -/
def spReset : Byte := 0xF4

/-- `PC_RESET`: value of `pc` after reset and load address of the image (R4, R25). -/
def pcReset : Byte := 0

/-- `FL_E`: the bit of `fl` that is Equal (R4, R16). -/
def flE : Nat := 0

/-- `FL_G`: the bit of `fl` that is Greater-Than (R4, R16). -/
def flG : Nat := 1

/-- `FL_L`: the bit of `fl` that is Less-Than (R4, R16). -/
def flL : Nat := 2

end Sys2Proof.Config
end

