-- ==== Sys2Proof/Machine/State.lean ====
section
/-! DEFINITION. The architectural state: the nine elements of `10_state.md` R10 and nothing else, the reasons a step can
stop, and the reset state (R25, R170). -/

namespace Sys2Proof.Machine

/-- The kinds of fault the machine records, each with its info (`60_exceptions.md` R141 to R145; kinds are names, D20).
Recording one is an effect of a step, not a stop of the model: see `raise` in `Machine/Ops.lean` and log entry 5. -/
inductive FaultKind where
  /-- The fetched opcode byte has no table entry (R141). -/
  | unknownOpcode (op : Byte)
  /-- Bit 5 set and a table entry that is not of class ALU (R142). Cannot occur with the 13 entries (R64). -/
  | unsupportedALUOperation (op : Byte)
  /-- A computed address, next `pc` or stack pointer is the integer `n` outside 0 to 255 (R143). -/
  | addressOutOfRange (n : Int)
  /-- A register operand byte is `v`, above 7 (R144). -/
  | registerIndexOutOfRange (v : Byte)
  /-- A conditional jump before any CMP (R145). -/
  | undefinedFlagsRead
deriving DecidableEq, Repr

/-- Why a step answers no next state: the machine is stopped and takes no step (`40_cycle.md` R70). -/
inductive Fault where
  /-- Raised by `step` alone, when `fault = none` and `run = 0`: before a Start event or after HLT (R20, R70). Safe: the
  spec gives a stopped machine no step. -/
  | notRunning
  /-- Raised by `step` alone, when `fault` holds `k`: the run ended with that fault (R21, R70). Safe: the spec gives a
  faulted machine no step. -/
  | stoppedByFault (k : FaultKind)
deriving DecidableEq, Repr

/-- Why the model gives no meaning. -/
inductive Refusal where
  /-- Reserved for an arm of `exec` that has no meaning yet. No arm uses it: all 13 instructions have their meaning. Safe. -/
  | notModelled (mnemonic : String)
deriving DecidableEq, Repr

/-- Memory: pairs (address, byte), addresses strictly rising, no pair that holds what an unlisted address reads as
(`Memory.wf` in `Machine/Ops.lean`). -/
abbrev Memory := List Host.Cell

/-- The machine's state (R10). Plain data. -/
structure State where
  /-- The 256 memory cells (R11). -/
  mem : Memory
  /-- The general registers `x[0]` to `x[7]`; `x[7]` is the stack pointer (R12, R13). -/
  x : Vector Byte 8
  /-- The program counter (R15). -/
  pc : Byte
  /-- The flags register: bit 0 E, bit 1 G, bit 2 L (R16). -/
  fl : Byte
  /-- True when `fl` holds a defined value (R18). -/
  flv : Bool
  /-- The instruction register (R19). -/
  ir : Byte
  /-- The Running flag (R20). -/
  run : Bool
  /-- The sticky record of a fatal error (R21). -/
  fault : Option FaultKind
  /-- Everything PRN has emitted, oldest first (R22). -/
  out : List Byte
deriving DecidableEq, Repr

/-- What the spec leaves open of the reset state: `MEM_INIT` (D9, any 256 bytes), `fl` and `ir` (unspecified, R25). -/
structure PowerOn where
  memInit : Memory
  fl : Byte
  ir : Byte
deriving DecidableEq, Repr

/-- The reset state for one choice of the open values (R25, R170). -/
def State.resetFrom (p : PowerOn) : State where
  mem := p.memInit
  x := #v[0, 0, 0, 0, 0, 0, 0, Config.spReset]
  pc := Config.pcReset
  fl := p.fl
  flv := false
  ir := p.ir
  run := false
  fault := none
  out := []

/-- The model's choice of the open values: nothing listed in memory, `fl` and `ir` zero. DESIGN CHOICE, unsafe, log
entries 2, 3 and 4: the spec permits any. -/
def PowerOn.zero : PowerOn where
  memInit := []
  fl := 0
  ir := 0

/-- The machine right after reset (R25). `run` is 0: a program runs after Load and Start (R171, log entry 7). -/
def State.reset : State := State.resetFrom PowerOn.zero

end Sys2Proof.Machine
end

