-- ==== Sys2Proof/Machine/Ops.lean ====
section
/-! DEFINITION. The named operations over memory, registers, `pc` and the other state elements, and the one operation
that raises a fault. The meanings of the instructions are written with these alone. -/

namespace Sys2Proof.Machine

/-- What a meaning answers. -/
abbrev Result := Host.Outcome State Fault Refusal

/-! ### Memory as a list of cells -/

/-- What an unlisted address reads as. DESIGN CHOICE, unsafe, log entry 2: the spec leaves `MEM_INIT` open (D9). A memory
with any other initial contents lists its non-zero cells. -/
def unlistedByte : Byte := 0

/-- The byte at address `a`. -/
def Memory.read : Memory → Nat → Byte
  | [], _ => unlistedByte
  | (k, v) :: rest, a => if k = a then v else Memory.read rest a

/-- The memory with the byte `v` at address `a`, in canonical form: writing what an unlisted address reads as removes the
entry. -/
def Memory.write : Memory → Nat → Byte → Memory
  | [], a, v => if v = unlistedByte then [] else [(a, v)]
  | (k, w) :: rest, a, v =>
    if k < a then (k, w) :: Memory.write rest a v
    else if k = a then (if v = unlistedByte then rest else (a, v) :: rest)
    else (if v = unlistedByte then (k, w) :: rest else (a, v) :: (k, w) :: rest)

/-- The canonical form: addresses strictly rising and below `MEM_SIZE`, no entry equal to what an unlisted address reads
as. -/
abbrev Memory.wf (m : Memory) : Prop :=
  m.Pairwise (fun c d => c.1 < d.1) ∧ ∀ c ∈ m, c.1 < Config.memSize ∧ c.2 ≠ unlistedByte

/-- The cells from address `a` upwards, at most `n` of them, ending with the last cell of the memory (R30). -/
def Memory.cellsFrom (m : Memory) (a : Nat) : Nat → List Byte
  | 0 => []
  | n + 1 => if a < Config.memSize then Memory.read m a :: Memory.cellsFrom m (a + 1) n else []

/-- The memory with a sequence of bytes placed at `a`, `a + 1`, …; a byte beyond the last cell is dropped (R172: an image
that does not fit is refused before it gets here). -/
def Memory.place (m : Memory) (a : Nat) : List Byte → Memory
  | [] => m
  | v :: rest => Memory.place (if a < Config.memSize then Memory.write m a v else m) (a + 1) rest

/-! ### Updates of one state element -/

/-- Read of general register `i` (R6, R12). -/
def readReg (s : State) (i : Fin 8) : Byte := s.x[i.val]

/-- Write of general register `i` (R6, R12, R14). -/
def writeReg (s : State) (i : Fin 8) (v : Byte) : State := { s with x := s.x.set i.val v }

/-- The stack pointer, `x[7]` (R13). -/
def readSp (s : State) : Byte := readReg s Config.spIndex

/-- Write of the stack pointer, `x[7]` (R13). -/
def writeSp (s : State) (v : Byte) : State := writeReg s Config.spIndex v

/-- `pc <- target` (R6). -/
def setPc (s : State) (target : Byte) : State := { s with pc := target }

/-- CMP's write of the flags: the whole of `fl`, and `flv <- 1` (R16, R18). -/
def setFlags (s : State) (v : Byte) : State := { s with fl := v, flv := true }

/-- `ir <- op` (R19, R71). -/
def latchIr (s : State) (op : Byte) : State := { s with ir := op }

/-- `run <- 0` (R20, R90). -/
def clearRun (s : State) : State := { s with run := false }

/-- `out <- out ++ [v]` (R22, R92). -/
def emit (s : State) (v : Byte) : State := { s with out := s.out ++ [v] }

/-- Replace the memory. -/
def setMem (s : State) (m : Memory) : State := { s with mem := m }

/-- `fault <- k` (R21). -/
def recordFault (s : State) (k : FaultKind) : State := { s with fault := some k }

/-! ### Faults -/

/-- TAKING A FAULT (R8, R140, R149): none of the instruction's writes happens, `fault` records the kind, and the machine
takes no further step because `step` stops on a recorded fault. `s` is the state the instruction found (with `ir` already
holding its opcode). The machine has no return from a fault (R150): only the Reset event clears `fault`. -/
def raise (k : FaultKind) (s : State) : Result := .next (recordFault s k)

/-- Go on with the value of a check that passed, or raise its fault in the state `s` the instruction found: how every check
precedes every write (R7, R78). -/
def checked {α : Type} (c : Except FaultKind α) (s : State) (k : α → Result) : Result :=
  match c with
  | .ok v => k v
  | .error f => raise f s

/-! ### Memory accesses of the machine -/

/-- `MemRead(addr, 1)` (R31): `addr` is a mathematical integer. -/
def memRead (s : State) (addr : Int) : Except FaultKind Byte :=
  if addr < 0 ∨ addr > 255 then .error (.addressOutOfRange addr) else .ok (Memory.read s.mem addr.toNat)

/-- `MemWrite(addr, 1, v)` (R31). -/
def memWrite (s : State) (addr : Int) (v : Byte) : Except FaultKind State :=
  if addr < 0 ∨ addr > 255 then .error (.addressOutOfRange addr) else .ok (setMem s (Memory.write s.mem addr.toNat v))

/-! ### The program counter and the stack pointer -/

/-- The checked value of `pc + k`: the advance of R77 (k = 1 + operand count) and CALL's return address (R110). -/
def nextPc (s : State) (k : Nat) : Except FaultKind Byte :=
  if s.pc.toNat + k > 255 then .error (.addressOutOfRange (s.pc.toNat + k : Nat))
  else .ok (BitVec.ofNat 8 (s.pc.toNat + k))

/-- The checked value of `x[7] - 1` (R102): the slot PUSH and CALL store to. -/
def decSp (s : State) : Except FaultKind Byte :=
  if (readSp s).toNat = 0 then .error (.addressOutOfRange (-1)) else .ok (readSp s - 1)

/-- The checked value of `sp + 1` (R102), for the stack pointer `sp` POP increments. -/
def incSp (sp : Byte) : Except FaultKind Byte :=
  if sp.toNat + 1 > 255 then .error (.addressOutOfRange (sp.toNat + 1 : Nat)) else .ok (sp + 1)

end Sys2Proof.Machine
end

