-- ==== Sys2Proof/Machine/Flags.lean ====
section
/-! DEFINITION. The flags register: what CMP writes (`10_state.md` R16, `44_alu.md` R128, R131) and what JEQ and JNE read
(R17, R18). -/

namespace Sys2Proof.Machine

/-- A flags byte with the one bit `k` set and every other bit 0 (R16, D24). -/
def flagBit (k : Nat) : Byte := BitVec.ofNat 8 (2 ^ k)

/-- The flags byte of a comparison of `u` with `v`, unsigned: E, else G, else L (R128). -/
def compareFlags (u v : Byte) : Byte :=
  if u.toNat = v.toNat then flagBit Config.flE
  else if u.toNat > v.toNat then flagBit Config.flG
  else flagBit Config.flL

/-- The Equal bit, or UndefinedFlagsRead while `flv = 0` (R18, R145): check 5 of R78. -/
def readEqual (s : State) : Except FaultKind Bool :=
  if s.flv = true then .ok (s.fl.getLsbD Config.flE) else .error .undefinedFlagsRead

end Sys2Proof.Machine
end

