-- ==== Sys2Proof/Machine/Operands.lean ====
section
/-! DEFINITION. The operand forms (`30_encoding.md` R56, R57): a register operand, which is checked, and LDI's immediate,
which is the byte itself and needs no operation. -/

namespace Sys2Proof.Machine

/-- `regidx(b)` (R6, R56, R76): the whole byte is the register index, and a value above 7 raises. -/
def regidx (b : Byte) : Except FaultKind (Fin 8) :=
  if h : b.toNat < 8 then .ok ⟨b.toNat, h⟩ else .error (.registerIndexOutOfRange b)

end Sys2Proof.Machine
end

