-- ==== Sys2Proof/Machine/Alu.lean ====
section
/-! DEFINITION. ADD, MUL, CMP: the ALU subunit (`44_alu.md` R125). -/

namespace Sys2Proof.Machine

/-- The sum, exact and then reduced modulo 256 (R126, R129). -/
def aluAdd (u v : Byte) : Byte := BitVec.ofNat 8 ((u.toNat + v.toNat) % 256)

/-- The product, exact and then reduced modulo 256 (R127, R129). -/
def aluMul (u v : Byte) : Byte := BitVec.ofNat 8 ((u.toNat * v.toNat) % 256)

/-- What the three ALU operations share (R125): both operands are checked registers, `write` makes the operation's one
write from register `a`'s index and the two values read, and `pc` advances by 3. -/
def aluOperation (write : State → Fin 8 → Byte → Byte → State) (a b : Byte) (s : State) : Result :=
  checked (regidx a) s fun ra =>
  checked (regidx b) s fun rb =>
  checked (nextPc s 3) s fun npc =>
  .next (setPc (write s ra (readReg s ra) (readReg s rb)) npc)

/-- ADD (R126): `x[a] <- (x[a] + x[b]) mod 256`; no flag (R130). -/
def execAdd (a b : Byte) (s : State) : Result :=
  aluOperation (fun s ra u v => writeReg s ra (aluAdd u v)) a b s

/-- MUL (R127): `x[a] <- (x[a] * x[b]) mod 256`; no flag (R130). -/
def execMul (a b : Byte) (s : State) : Result :=
  aluOperation (fun s ra u v => writeReg s ra (aluMul u v)) a b s

/-- CMP (R128): the whole of `fl`, and `flv <- 1`. -/
def execCmp (a b : Byte) (s : State) : Result :=
  aluOperation (fun s _ u v => setFlags s (compareFlags u v)) a b s

end Sys2Proof.Machine
end

