-- ==== Sys2Proof/Machine/Control.lean ====
section
/-! DEFINITION. CALL, RET, JEQ, JNE, JMP (`43_control_transfer.md`). -/

namespace Sys2Proof.Machine

/-- CALL (R110): pushes `pc + 2`; the target register is read after the decrement of `x[7]`. -/
def execCall (a : Byte) (s : State) : Result :=
  checked (regidx a) s fun ra =>
  checked (decSp s) s fun sp =>
  checked (nextPc s 2) s fun ret =>
  checked (memWrite (writeSp s sp) sp.toNat ret) s fun t =>
  .next (setPc t (readReg t ra))

/-- RET (R111): `pc` from the top of the stack; the stack pointer is not incremented (D11). -/
def execRet (s : State) : Result :=
  checked (memRead s (readSp s).toNat) s fun target =>
  .next (setPc s target)

/-- A conditional jump to `x[a]`, taken when the Equal bit is `taken` (R112, R113). -/
def jumpWhenEqualIs (taken : Bool) (a : Byte) (s : State) : Result :=
  checked (regidx a) s fun ra =>
  checked (readEqual s) s fun e =>
  if e = taken then .next (setPc s (readReg s ra))
  else checked (nextPc s 2) s fun npc => .next (setPc s npc)

/-- JEQ (R112). -/
def execJeq (a : Byte) (s : State) : Result := jumpWhenEqualIs true a s

/-- JNE (R113). -/
def execJne (a : Byte) (s : State) : Result := jumpWhenEqualIs false a s

/-- JMP (R114). -/
def execJmp (a : Byte) (s : State) : Result :=
  checked (regidx a) s fun ra =>
  .next (setPc s (readReg s ra))

end Sys2Proof.Machine
end

