-- ==== Sys2Proof/Machine/Stack.lean ====
section
/-! DEFINITION. PUSH and POP (`42_stack.md`). -/

namespace Sys2Proof.Machine

/-- PUSH (R100): the stack pointer is decremented first, so `x[a]` is read and the store made after it. -/
def execPush (a : Byte) (s : State) : Result :=
  checked (regidx a) s fun ra =>
  checked (decSp s) s fun sp =>
  checked (nextPc s 2) s fun npc =>
  checked (memWrite (writeSp s sp) sp.toNat (readReg (writeSp s sp) ra)) s fun t =>
  .next (setPc t npc)

/-- The stack pointer POP increments: the popped value if the destination is register 7 (R101). -/
def popPointer (s : State) (ra : Fin 8) (v : Byte) : Byte :=
  if ra = Config.spIndex then v else readSp s

/-- POP (R101): the loaded value is written first, then the incremented stack pointer. -/
def execPop (a : Byte) (s : State) : Result :=
  checked (regidx a) s fun ra =>
  checked (memRead s (readSp s).toNat) s fun v =>
  checked (incSp (popPointer s ra v)) s fun sp =>
  checked (nextPc s 2) s fun npc =>
  .next (setPc (writeSp (writeReg s ra v) sp) npc)

end Sys2Proof.Machine
end

