-- ==== Sys2Proof/Machine/SystemData.lean ====
section
/-! DEFINITION. HLT, LDI, PRN (`41_system_and_data.md`). -/

namespace Sys2Proof.Machine

/-- HLT (R90): clears `run`; `pc` stays on the HLT byte. -/
def execHlt (s : State) : Result := .next (clearRun s)

/-- LDI (R91): `x[a] <- b`. -/
def execLdi (a b : Byte) (s : State) : Result :=
  checked (regidx a) s fun ra =>
  checked (nextPc s 3) s fun npc =>
  .next (setPc (writeReg s ra b) npc)

/-- PRN (R92): emits `x[a]`. -/
def execPrn (a : Byte) (s : State) : Result :=
  checked (regidx a) s fun ra =>
  checked (nextPc s 2) s fun npc =>
  .next (setPc (emit s (readReg s ra)) npc)

end Sys2Proof.Machine
end

