-- ==== Sys2Proof/Syntax.lean ====
section
/-! DEFINITION. The instructions of the machine: one constructor per row of `spec/opcode_table.json`
(`30_encoding.md` R54), and the vocabulary of the opcode table (R53). -/

namespace Sys2Proof

/-- The 13 instructions (R1, R54). An operand is the whole operand byte as it stands in memory: `a` is a register index
in every instruction that has one; `b` is an immediate in LDI and a register index in ADD, MUL and CMP (R51). A register
byte above 7 is a form of the instruction: it raises RegisterIndexOutOfRange when executed (R56, R76). -/
inductive Instr where
  | hlt
  | ldi (a b : Byte)
  | prn (a : Byte)
  | push (a : Byte)
  | pop (a : Byte)
  | call (a : Byte)
  | ret
  | jeq (a : Byte)
  | jne (a : Byte)
  | jmp (a : Byte)
  | add (a b : Byte)
  | mul (a b : Byte)
  | cmp (a b : Byte)
deriving DecidableEq, Repr

/-- The names of the opcode table's rows (R54). -/
inductive Mnemonic where
  | hlt | ldi | prn | push | pop | call | ret | jeq | jne | jmp | add | mul | cmp
deriving DecidableEq, Repr

/-- The two execution paths an entry can belong to (R53). -/
inductive OpClass where
  | direct
  | alu
deriving DecidableEq, Repr

/-- The four formats of R51: no operand, one register, register and immediate, two registers. -/
inductive Format where
  | f0
  | f1
  | f2i
  | f2r
deriving DecidableEq, Repr

/-- An entry of the opcode table: the tuple of R53. -/
structure OpEntry where
  mnemonic : Mnemonic
  cls : OpClass
  operandCount : Nat
  format : Format
deriving DecidableEq, Repr

/-- The table row an instruction belongs to. -/
def Instr.mnemonic : Instr → Mnemonic
  | .hlt => .hlt
  | .ldi _ _ => .ldi
  | .prn _ => .prn
  | .push _ => .push
  | .pop _ => .pop
  | .call _ => .call
  | .ret => .ret
  | .jeq _ => .jeq
  | .jne _ => .jne
  | .jmp _ => .jmp
  | .add _ _ => .add
  | .mul _ _ => .mul
  | .cmp _ _ => .cmp

/-- The register operand bytes of an instruction, operand `a` before operand `b` (R51, R76). -/
def Instr.regOperands : Instr → List Byte
  | .hlt => []
  | .ldi a _ => [a]
  | .prn a => [a]
  | .push a => [a]
  | .pop a => [a]
  | .call a => [a]
  | .ret => []
  | .jeq a => [a]
  | .jne a => [a]
  | .jmp a => [a]
  | .add a b => [a, b]
  | .mul a b => [a, b]
  | .cmp a b => [a, b]

end Sys2Proof
end

