-- ==== Sys2Proof/WellFormed.lean ====
section
/-! DEFINITION. Well-formed instructions: those that assembly text can name, every register operand being `R0` to `R7`
(`30_encoding.md` R56, R61). The machine also executes the others: they raise RegisterIndexOutOfRange (R76). -/

namespace Sys2Proof

/-- Every register operand byte is a register index 0 to 7 (R56). LDI's immediate is not checked (R57). -/
abbrev Instr.WellFormed (i : Instr) : Prop := ∀ r ∈ i.regOperands, r.toNat < 8

end Sys2Proof
end

