-- ==== Sys2Proof/Decode.lean ====
section
/-! DEFINITION. The opcode table (`30_encoding.md` R54), decoding (R53, R58, R60; `40_cycle.md` R72 to R75), encoding
(R50, R51) and assembly text (R61). -/

namespace Sys2Proof

/-- `CALL_OPCODE` (R4, R55, D1). PRESUMED, log entry 1, unsafe: the literal is lost in the source and the spec supplies
the opcode of the LS-8 family from general knowledge. -/
def callOpcode : Byte := 0x50

/-- The opcode byte of each row of the opcode map (R54). -/
def opcodeOf : Mnemonic → Byte
  | .hlt => 0x01
  | .ldi => 0x82
  | .prn => 0x47
  | .push => 0x45
  | .pop => 0x46
  | .call => callOpcode
  | .ret => 0x11
  | .jeq => 0x55
  | .jne => 0x56
  | .jmp => 0x54
  | .add => 0xA0
  | .mul => 0xA2
  | .cmp => 0xA7

/-- One row of the opcode map: the opcode byte of `m` with its entry. -/
def opcodeRow (m : Mnemonic) (cls : OpClass) (operandCount : Nat) (format : Format) : Byte × OpEntry :=
  (opcodeOf m, { mnemonic := m, cls := cls, operandCount := operandCount, format := format })

/-- The opcode map, all 13 rows in the source's order (R54). A constant, not state (R23). -/
def opcodeTable : List (Byte × OpEntry) :=
  [ opcodeRow .hlt .direct 0 .f0,
    opcodeRow .ldi .direct 2 .f2i,
    opcodeRow .prn .direct 1 .f1,
    opcodeRow .push .direct 1 .f1,
    opcodeRow .pop .direct 1 .f1,
    opcodeRow .call .direct 1 .f1,
    opcodeRow .ret .direct 0 .f0,
    opcodeRow .jeq .direct 1 .f1,
    opcodeRow .jne .direct 1 .f1,
    opcodeRow .jmp .direct 1 .f1,
    opcodeRow .add .alu 2 .f2r,
    opcodeRow .mul .alu 2 .f2r,
    opcodeRow .cmp .alu 2 .f2r ]

/-- `DECODE(op)`: the entry whose opcode equals `op` in all eight bits, or none (R53). -/
def decodeOpcode (op : Byte) : Option OpEntry :=
  (opcodeTable.find? (fun row => row.1 == op)).map (fun row => row.2)

/-- `is_alu`: bit 5 of the opcode byte (R52, R73). -/
def isAlu (op : Byte) : Bool := op.getLsbD 5

/-- Why bytes are no instruction. -/
inductive DecodeError where
  /-- The opcode byte has no entry (R58, R72). -/
  | unknownOpcode (op : Byte)
  /-- Bit 5 is set and the entry is not of class ALU (R64, R74): no byte of this table. -/
  | unsupportedALUOperation (op : Byte)
  /-- Byte `k` of the instruction (0 the opcode, 1 operand `a`, 2 operand `b`) is needed and lies beyond the given bytes. -/
  | byteMissing (k : Nat)
deriving DecidableEq, Repr

/-- The operand phase on a list of bytes (R75): the `n` operand bytes, `a` then `b`, and the bytes after them. An operand
the instruction does not have is given as 0 and is used by nothing. -/
def takeOperands : Nat → List Byte → Except DecodeError (Byte × Byte × List Byte)
  | 0, rest => .ok (0, 0, rest)
  | _ + 1, [] => .error (.byteMissing 1)
  | 1, a :: rest => .ok (a, 0, rest)
  | _ + 2, [_] => .error (.byteMissing 2)
  | _ + 2, a :: b :: rest => .ok (a, b, rest)

/-- The instruction of a table row with its operand bytes (R51). -/
def buildInstr : Mnemonic → Byte → Byte → Instr
  | .hlt, _, _ => .hlt
  | .ldi, a, b => .ldi a b
  | .prn, a, _ => .prn a
  | .push, a, _ => .push a
  | .pop, a, _ => .pop a
  | .call, a, _ => .call a
  | .ret, _, _ => .ret
  | .jeq, a, _ => .jeq a
  | .jne, a, _ => .jne a
  | .jmp, a, _ => .jmp a
  | .add, a, b => .add a b
  | .mul, a, b => .mul a b
  | .cmp, a, b => .cmp a b

/-- Decode the bytes at an instruction's start, in the order of phases R72 to R75: table look-up, ALU support check,
operand bytes. Gives the instruction and the bytes after it. -/
def decode : List Byte → Except DecodeError (Instr × List Byte)
  | [] => .error (.byteMissing 0)
  | op :: rest =>
    match decodeOpcode op with
    | none => .error (.unknownOpcode op)
    | some d =>
      if isAlu op = true ∧ d.cls ≠ .alu then .error (.unsupportedALUOperation op)
      else
        match takeOperands d.operandCount rest with
        | .ok (a, b, rest') => .ok (buildInstr d.mnemonic a b, rest')
        | .error e => .error e

/-- The operand bytes of an instruction, ascending (R50). -/
def operandBytes : Instr → List Byte
  | .hlt => []
  | .ldi a b => [a, b]
  | .prn a => [a]
  | .push a => [a]
  | .pop a => [a]
  | .call a => [a]
  | .ret => []
  | .jeq a => [a]
  | .jne a => [a]
  | .jmp a => [a]
  | .add a b => [a, b]
  | .mul a b => [a, b]
  | .cmp a b => [a, b]

/-- The bytes of an instruction: opcode, then operands (R50, R51). -/
def encode (i : Instr) : List Byte := opcodeOf i.mnemonic :: operandBytes i

/-- The bytes an instruction of `spec/opcode_table.json` stands as in memory: bits 7..0 of `w` first, bits 23..16 last,
the bits above `nbits` zero, up to the longest instruction (three bytes, R50). -/
def tableBytes (nbits w : Nat) : List Byte :=
  let v := w % 2 ^ nbits
  [BitVec.ofNat 8 v, BitVec.ofNat 8 (v / 256), BitVec.ofNat 8 (v / 65536)]

/-- The instruction the decoder reads from table bits `w`, if it accepts them. -/
def decodeTableWord (nbits w : Nat) : Option Instr :=
  match decode (tableBytes nbits w) with
  | .ok (i, _) => some i
  | .error _ => none

/-- The mnemonic in capitals, as `spec/opcode_table.json` spells it (R54, R61). -/
def mnemonicText : Mnemonic → String
  | .hlt => "HLT"
  | .ldi => "LDI"
  | .prn => "PRN"
  | .push => "PUSH"
  | .pop => "POP"
  | .call => "CALL"
  | .ret => "RET"
  | .jeq => "JEQ"
  | .jne => "JNE"
  | .jmp => "JMP"
  | .add => "ADD"
  | .mul => "MUL"
  | .cmp => "CMP"

/-- A register operand in assembly text, `R0` to `R7` for a legal index (R61). -/
def regText (r : Byte) : String := "R" ++ toString r.toNat

/-- Assembly text: the mnemonic, then the operands in the order `a`, `b` (R61). -/
def asmText (i : Instr) : String :=
  match i with
  | .hlt => mnemonicText .hlt
  | .ldi a b => mnemonicText .ldi ++ " " ++ regText a ++ "," ++ toString b.toNat
  | .prn a => mnemonicText .prn ++ " " ++ regText a
  | .push a => mnemonicText .push ++ " " ++ regText a
  | .pop a => mnemonicText .pop ++ " " ++ regText a
  | .call a => mnemonicText .call ++ " " ++ regText a
  | .ret => mnemonicText .ret
  | .jeq a => mnemonicText .jeq ++ " " ++ regText a
  | .jne a => mnemonicText .jne ++ " " ++ regText a
  | .jmp a => mnemonicText .jmp ++ " " ++ regText a
  | .add a b => mnemonicText .add ++ " " ++ regText a ++ "," ++ regText b
  | .mul a b => mnemonicText .mul ++ " " ++ regText a ++ "," ++ regText b
  | .cmp a b => mnemonicText .cmp ++ " " ++ regText a ++ "," ++ regText b

end Sys2Proof
end

