-- ==== Sys2Proof/Machine/Fetch.lean ====
section
/-! DEFINITION. Fetch, decode and operand fetch of one step (`40_cycle.md` R71 to R75), and placing an instruction where
the next fetch finds it. -/

namespace Sys2Proof.Machine

/-- The byte `k` places after the program counter: 0 the opcode, 1 operand `a`, 2 operand `b` (R50). -/
def byteAtPc (s : State) (k : Nat) : Byte := Memory.read s.mem (s.pc.toNat + k)

/-- The fault a step raises when the bytes at `pc` are no instruction (R72, R74, R75): a needed byte beyond 255 is
AddressOutOfRange of its address. -/
def decodeFault (pc : Byte) : DecodeError → FaultKind
  | .unknownOpcode op => .unknownOpcode op
  | .unsupportedALUOperation op => .unsupportedALUOperation op
  | .byteMissing k => .addressOutOfRange (pc.toNat + k : Nat)

/-- The instruction at `pc`, or the fault of the phases R72 to R75. At most three cells from `pc` up are given to the
decoder, none beyond address 255; it looks at those the instruction has (R45). -/
def fetchDecode (s : State) : Except FaultKind Instr :=
  match decode (Memory.cellsFrom s.mem s.pc.toNat 3) with
  | .ok (i, _) => .ok i
  | .error e => .error (decodeFault s.pc e)

/-- `s` running, with no fault recorded, and with `bytes` at `pc`: what Load and Start bring about (log entry 7). -/
def placeAtPc (s : State) (bytes : List Byte) : State :=
  { s with mem := Memory.place s.mem s.pc.toNat bytes, run := true, fault := none }

end Sys2Proof.Machine
end

