-- ==== Sys2Proof/Machine/Step.lean ====
section
/-! DEFINITION. The step of the machine (`40_cycle.md` R82). -/

namespace Sys2Proof.Machine

/-- One step (R70, R82). A stopped machine takes none. A running one latches the opcode in `ir` (R71), and then either
raises the fault of fetch and decode or executes the instruction. -/
def step (s : State) : Host.Outcome State Fault Refusal :=
  match s.fault with
  | some k => .fault (.stoppedByFault k)
  | none =>
    if s.run = true then
      match fetchDecode s with
      | .ok i => exec i (latchIr s (byteAtPc s 0))
      | .error k => raise k (latchIr s (byteAtPc s 0))
    else .fault .notRunning

/-- `s` with the instruction of the opcode table's bits `w` where the next step fetches it. The machine does not select its
own program: the host Loads and Starts it (R171), so this also sets what Start sets (log entry 7). -/
def State.withFetchWord (s : State) (nbits w : Nat) : State := placeAtPc s (tableBytes nbits w)

end Sys2Proof.Machine
end

