-- ==== Sys2Proof/Machine/Events.lean ====
section
/-! DEFINITION. The host interface (`70_reset_and_hazards.md` R179): the events Reset, Load and Start, which land between
steps (`40_cycle.md` R79), and what the host may observe. -/

namespace Sys2Proof.Machine

/-- The events of the host. Reset carries the values the spec leaves open (`MEM_INIT`, `fl`, `ir`): arguments of the model,
not of the hardware's event (R25, D9). -/
inductive Event where
  | reset (p : PowerOn)
  | load (image : List Byte)
  | start
deriving DecidableEq, Repr

/-- What the host may observe (R179). -/
structure Observation where
  out : List Byte
  run : Bool
  fault : Option FaultKind
deriving DecidableEq, Repr

/-- The machine is stopped without a fault: before its first Start or after HLT (R20, R21). -/
abbrev Idle (s : State) : Prop := s.run = false ∧ s.fault = none

/-- When an event is accepted (R179). -/
abbrev accepts (s : State) : Event → Prop
  | .reset _ => True
  | .load image => Idle s ∧ image.length ≤ Config.memSize
  | .start => Idle s

/-- The effect of Reset (R170). -/
def hostReset (p : PowerOn) : State := State.resetFrom p

/-- The effect of Load (R172): word `k` of the image goes to `mem[k]`; an image that does not fit, or one that comes while
the machine runs or is faulted, is refused whole (D17). -/
def hostLoad (image : List Byte) (s : State) : State :=
  if Idle s ∧ image.length ≤ Config.memSize then setMem s (Memory.place s.mem Config.pcReset.toNat image) else s

/-- The effect of Start (R81): `run <- 1` and nothing else, if the machine is stopped without a fault (D18). -/
def hostStart (s : State) : State :=
  if Idle s then { s with run := true } else s

/-- An event applied to a state; one that is not accepted has no effect (R179). -/
def applyEvent (e : Event) (s : State) : State :=
  match e with
  | .reset p => hostReset p
  | .load image => hostLoad image s
  | .start => hostStart s

/-- The observations of R179. -/
def observe (s : State) : Observation where
  out := s.out
  run := s.run
  fault := s.fault

end Sys2Proof.Machine
end

