-- ==== Sys2Proof/Safety.lean ====
section
/-! DEFINITION. The terms the claims use: when the machine takes a step, what a step that raises a fault leaves, what every
step keeps, and which registers an instruction may write. -/

namespace Sys2Proof.Safety

open Sys2Proof.Machine

/-- The machine takes a step (`40_cycle.md` R70). -/
abbrev Running (s : State) : Prop := s.run = true ∧ s.fault = none

/-- What a step that raises `k` answers: `ir` and `fault` written and nothing else (R78). -/
def faultsWith (s : State) (k : FaultKind) : Result :=
  .next { s with ir := byteAtPc s 0, fault := some k }

/-- `fl` holds what a CMP writes: exactly one of bits 0 (E), 1 (G), 2 (L), every other bit 0 (`10_state.md` R16). -/
abbrev OneFlag (fl : Byte) : Prop := fl = 1 ∨ fl = 2 ∨ fl = 4

/-- The instruction uses the address of the byte after it: as the next `pc`, or as CALL's return address (`20_memory.md` R43,
second and third row). JMP, HLT, RET and a taken JEQ or JNE do not. -/
def UsesNextAddress (s : State) : Instr → Prop
  | .hlt => False
  | .ldi _ _ => True
  | .prn _ => True
  | .push _ => True
  | .pop _ => True
  | .call _ => True
  | .ret => False
  | .jeq _ => s.fl.getLsbD Config.flE = false
  | .jne _ => s.fl.getLsbD Config.flE = true
  | .jmp _ => False
  | .add _ _ => True
  | .mul _ _ => True
  | .cmp _ _ => True

/-- The instruction decrements a stack pointer of 0 (R43, fourth row). -/
def DecrementsZeroSp (s : State) (i : Instr) : Prop := (∃ a, i = .push a ∨ i = .call a) ∧ readSp s = 0

/-- The instruction increments a stack pointer of 255, the popped value for `POP R7` (R43, fifth row). -/
def IncrementsFullSp (s : State) (i : Instr) : Prop :=
  ∃ a, i = .pop a ∧ (if a = 7 then Memory.read s.mem (readSp s).toNat else readSp s) = 255

/-- A needed operand byte of the instruction at `pc` lies beyond address 255 (R43, first row). -/
def OperandBeyondEnd (s : State) : Prop :=
  ∃ d, decodeOpcode (byteAtPc s 0) = some d ∧ 255 < s.pc.toNat + d.operandCount

/-- What the state shows of the cause of a fault that an instruction raises when it executes (`60_exceptions.md` R143 to R145):
a fault other than that of a register operand byte comes only with register operands that passed their check (R148). -/
def ExecCause (s : State) (i : Instr) : FaultKind → Prop
  | .unknownOpcode _ => False
  | .unsupportedALUOperation _ => False
  | .addressOutOfRange n => i.WellFormed ∧
      ((n = -1 ∧ DecrementsZeroSp s i) ∨
        (n = 256 ∧ (IncrementsFullSp s i ∨ (UsesNextAddress s i ∧ 255 < s.pc.toNat + (encode i).length))))
  | .registerIndexOutOfRange v => i.regOperands.find? (fun r => decide (8 ≤ r.toNat)) = some v
  | .undefinedFlagsRead => i.WellFormed ∧ s.flv = false ∧ ∃ a, i = .jeq a ∨ i = .jne a

/-- What the stopped state shows of the cause of a recorded fault (`60_exceptions.md` R140 to R145, `20_memory.md` R43): the
byte at `pc` has no entry; or a needed operand byte lies beyond 255; or the instruction at `pc` shows the cause. CALL's opcode
is log entry 1. -/
def FaultCause (s : State) (k : FaultKind) : Prop :=
  (k = .unknownOpcode (byteAtPc s 0) ∧ decodeOpcode (byteAtPc s 0) = none) ∨
    (k = .addressOutOfRange 256 ∧ OperandBeyondEnd s) ∨
    ∃ i, fetchDecode s = .ok i ∧ ExecCause s i k

/-- What every step keeps: memory in canonical form; while `fl` is defined it has exactly one flag set; and a recorded fault
is explained by the state it stopped in, where `run` is still 1, `ir` holds the opcode byte at `pc`, and the cause shows. -/
def Inv (s : State) : Prop :=
  Memory.wf s.mem ∧ (s.flv = true → OneFlag s.fl) ∧
    ∀ k, s.fault = some k → s.run = true ∧ s.ir = byteAtPc s 0 ∧ FaultCause s k

/-- The registers an instruction may write: its destination, and `x[7]` where the rule changes the stack pointer
(`10_state.md` R12, R13). -/
def destRegs : Instr → List Nat
  | .hlt => []
  | .ldi a _ => [a.toNat]
  | .prn _ => []
  | .push _ => [7]
  | .pop a => [a.toNat, 7]
  | .call _ => [7]
  | .ret => []
  | .jeq _ => []
  | .jne _ => []
  | .jmp _ => []
  | .add a _ => [a.toNat]
  | .mul a _ => [a.toNat]
  | .cmp _ _ => []

/-- The instructions that store to memory (`20_memory.md` R34). -/
def Stores : Instr → Prop
  | .hlt => False
  | .ldi _ _ => False
  | .prn _ => False
  | .push _ => True
  | .pop _ => False
  | .call _ => True
  | .ret => False
  | .jeq _ => False
  | .jne _ => False
  | .jmp _ => False
  | .add _ _ => False
  | .mul _ _ => False
  | .cmp _ _ => False

end Sys2Proof.Safety
end

