-- ==== Sys2Proof/Certificates/Slice0/Obligations.lean ====
section
/-! DEFINITION. The statements for the provers. Each docstring names the rule of spec/ it formalises; where a clause rests on
a decision D<n> of `92_eei_decisions.md` or on an assumption log entry, it says so. -/

open Sys2Proof Sys2Proof.Machine Sys2Proof.Safety

/-! ### Encoding -/

/-- Decode and encode agree, both ways, on every byte string (`30_encoding.md`, lengths and formats, decode): `bs` decodes to
`i` with `rest` left over exactly when `bs` is the encoding of `i` followed by `rest`, for every operand byte. CALL's opcode
is the model's choice, log entry 1. -/
def Obligations.DecodeAcceptsExactlyTheEncodings : Prop :=
  ∀ (bs : List Byte) (i : Instr) (rest : List Byte), decode bs = .ok (i, rest) ↔ bs = encode i ++ rest

/-- R53: DECODE matches the whole opcode byte with the rows of the table, whose opcodes are distinct; operand bytes take no
part: whether a byte string is an unknown opcode depends on its first byte alone. -/
def Obligations.DecodeMatchesTheWholeOpcodeByte : Prop :=
  (∀ (op : Byte) (d : OpEntry), decodeOpcode op = some d ↔ (op, d) ∈ opcodeTable) ∧
  (∀ (op : Byte) (rest : List Byte), decode (op :: rest) = .error (.unknownOpcode op) ↔ decodeOpcode op = none)

/-- The opcode map of `30_encoding.md` section 2, row by row, with its audit: distinct opcodes, bit 5 exactly in class ALU,
bits 7:6 equal to the operand count. The CALL row is the model's choice, log entry 1. -/
def Obligations.OpcodeTableHasTheThirteenRows : Prop :=
  opcodeTable =
    [ (0x01, ⟨.hlt, .direct, 0, .f0⟩), (0x82, ⟨.ldi, .direct, 2, .f2i⟩), (0x47, ⟨.prn, .direct, 1, .f1⟩),
      (0x45, ⟨.push, .direct, 1, .f1⟩), (0x46, ⟨.pop, .direct, 1, .f1⟩), (0x50, ⟨.call, .direct, 1, .f1⟩),
      (0x11, ⟨.ret, .direct, 0, .f0⟩), (0x55, ⟨.jeq, .direct, 1, .f1⟩), (0x56, ⟨.jne, .direct, 1, .f1⟩),
      (0x54, ⟨.jmp, .direct, 1, .f1⟩), (0xA0, ⟨.add, .alu, 2, .f2r⟩), (0xA2, ⟨.mul, .alu, 2, .f2r⟩),
      (0xA7, ⟨.cmp, .alu, 2, .f2r⟩) ] ∧
  (opcodeTable.map (fun row => row.1)).Nodup ∧
  ∀ row ∈ opcodeTable, (row.1.getLsbD 5 = true ↔ row.2.cls = .alu) ∧ row.1.toNat / 64 = row.2.operandCount

/-- A few words written out from the encoding tables (`30_encoding.md` R51, `95_test_vectors.md` S1, S10) decode to the
instruction they stand for. The CALL word is the model's choice, log entry 1. -/
def Obligations.WrittenOutWordsDecode : Prop :=
  decodeTableWord 8 0b00000001 = some .hlt ∧
  decodeTableWord 24 0b00001000_00000000_10000010 = some (.ldi 0 8) ∧
  decodeTableWord 16 0b00000111_01000101 = some (.push 7) ∧
  decodeTableWord 16 0b00000001_01010000 = some (.call 1) ∧
  decodeTableWord 16 0b00000100_01010110 = some (.jne 4) ∧
  decodeTableWord 24 0b00000011_00000001_10100111 = some (.cmp 1 3) ∧
  decodeTableWord 8 0b11111111 = none

/-- R72 and R141: an opcode byte without an entry raises UnknownOpcode with that byte, before every other fault, and changes
nothing but `ir` and `fault`; there are 243 such bytes. -/
def Obligations.UnknownOpcodeFaultsFirst : Prop :=
  (∀ s : State, Running s → decodeOpcode (byteAtPc s 0) = none →
    step s = faultsWith s (.unknownOpcode (byteAtPc s 0))) ∧
  ((List.range 256).filter (fun n => (decodeOpcode (BitVec.ofNat 8 n)).isNone)).length = 243

/-- The ALU support check (`40_cycle.md` R74) never fails with this table, as `30_encoding.md` R64 infers: bit 5 of a byte
with an entry is the class of the entry, no byte string decodes to UnsupportedALUOperation, and no step records it. -/
def Obligations.AluSupportCheckNeverFails : Prop :=
  (∀ (op : Byte) (d : OpEntry), decodeOpcode op = some d → (op.getLsbD 5 = true ↔ d.cls = .alu)) ∧
  (∀ (bs : List Byte) (op : Byte), decode bs ≠ .error (.unsupportedALUOperation op)) ∧
  (∀ (s t : State) (op : Byte), step s = .next t → t.fault ≠ some (.unsupportedALUOperation op))

/-! ### The step -/

/-- R82: when the bytes at `pc` decode to an instruction, well formed or not, a step of a running machine is `exec` of it with
the opcode byte latched in `ir`, and nothing around it. -/
def Obligations.StepRunsTheDecodedInstruction : Prop :=
  ∀ (s : State) (i : Instr) (rest : List Byte), Running s →
    decode (Memory.cellsFrom s.mem s.pc.toNat 3) = .ok (i, rest) → step s = exec i { s with ir := byteAtPc s 0 }

/-- R70: a step happens exactly when `run = 1` and `fault = none`; a step either completes (no fault is recorded) or raises
one fault; a stopped machine answers a stop and no state. -/
def Obligations.StepHappensExactlyWhileRunning : Prop :=
  (∀ s : State, (∃ t, step s = .next t) ↔ (s.run = true ∧ s.fault = none)) ∧
  (∀ s t : State, step s = .next t → t.fault = none ∨ ∃ k, step s = faultsWith s k) ∧
  (∀ (s : State) (k : FaultKind), s.fault = some k → step s = .fault (.stoppedByFault k)) ∧
  (∀ s : State, s.fault = none → s.run = false → step s = .fault .notRunning)

/-- Every instruction runs in every state: `exec` answers a next state, never a stop of the model (`40_cycle.md` R82: the
function is total). -/
def Obligations.EveryInstructionAnswersANextState : Prop :=
  ∀ (i : Instr) (s : State), ∃ t, exec i s = .next t

/-- R140 and R149: a step that raises a fault changes `ir` and `fault` and nothing else: `ir` holds the opcode byte, `pc` still
its address; and the machine then takes no step (decisions D2, D3). -/
def Obligations.FaultsArePreciseAndFinal : Prop :=
  ∀ (s t : State) (k : FaultKind), step s = .next t → t.fault = some k →
    t = { s with ir := Memory.read s.mem s.pc.toNat, fault := some k } ∧ step t = .fault (.stoppedByFault k)

/-- A recorded fault is explained by the stopped state (`60_exceptions.md`, the fault kinds; `20_memory.md` section 6, where
an out-of-range address can arise): UnknownOpcode by the byte at `pc`; AddressOutOfRange(256) by an operand byte beyond 255, by
a POP whose pointer is 255 or by an instruction that uses the address after it and ends at 255, AddressOutOfRange(-1) by a PUSH
or CALL with a zero stack pointer (R143 infers that no other integer occurs); RegisterIndexOutOfRange by the first operand byte
of at least 8 of the instruction at `pc`; UndefinedFlagsRead by `flv = 0` under a JEQ or JNE. CALL's opcode is log entry 1. -/
def Obligations.RecordedFaultShowsItsCause : Prop :=
  ∀ (s t : State) (k : FaultKind), step s = .next t → t.fault = some k → FaultCause t k

/-- The invariant `Inv` is kept by every step from every state that has it, reachable or not, and by every event of the host
(Reset with a canonical `MEM_INIT`): canonical memory, one flag set while `fl` is defined, and a recorded fault explained by
the state. CALL's opcode, in `FaultCause`, is log entry 1. -/
def Obligations.EveryStepKeepsInv : Prop :=
  (∀ s t : State, Inv s → step s = .next t → Inv t) ∧
  (∀ (e : Event) (s : State), Inv s → (∀ p, e = .reset p → Memory.wf p.memInit) → Inv (applyEvent e s))

/-- The reset state has the invariant, for every canonical `MEM_INIT` and every value of `fl` and `ir`; so has the model's own
choice `State.reset` (log entries 2, 3, 4). -/
def Obligations.ResetStatesHaveInv : Prop :=
  (∀ p : PowerOn, Memory.wf p.memInit → Inv (State.resetFrom p)) ∧ Inv State.reset

/-! ### The host's events -/

/-- R25 and R170: Reset, in any state, leaves these values, whatever `MEM_INIT`, `fl` and `ir` are taken to be (`p`). -/
def Obligations.ResetLeavesTheStatedValues : Prop :=
  ∀ (p : PowerOn) (s : State),
    let r := applyEvent (.reset p) s
    (∀ i : Fin 8, i ≠ 7 → readReg r i = 0) ∧ readReg r 7 = 0xF4 ∧ r.pc = 0 ∧ r.run = false ∧ r.flv = false ∧
      r.fault = none ∧ r.out = [] ∧ r.mem = p.memInit ∧ r.fl = p.fl ∧ r.ir = p.ir

/-- R172: an accepted Load writes word `k` of the image to `mem[k]` and changes no other cell and no other state; an image
longer than 256 words, or a Load while the machine runs or is faulted, changes nothing (decision D17). -/
def Obligations.LoadPlacesTheImageAtZero : Prop :=
  (∀ (s : State) (image : List Byte), Memory.wf s.mem → s.run = false → s.fault = none → image.length ≤ 256 →
    ∃ m, applyEvent (.load image) s = { s with mem := m } ∧ Memory.wf m ∧
      ∀ k, k < 256 → Memory.read m k = image.getD k (Memory.read s.mem k)) ∧
  (∀ (s : State) (image : List Byte), 256 < image.length → applyEvent (.load image) s = s) ∧
  (∀ (s : State) (image : List Byte), s.run = true ∨ s.fault ≠ none → applyEvent (.load image) s = s)

/-- R81: Start is accepted when `run = 0` and `fault = none`, and its whole effect is `run <- 1`; after a HLT it resumes at the
HLT, which halts again at once and leaves the halted state as it was (decision D18). -/
def Obligations.StartSetsRunAndNothingElse : Prop :=
  (∀ s : State, s.run = false → s.fault = none → applyEvent .start s = { s with run := true }) ∧
  (∀ s : State, s.run = true ∨ s.fault ≠ none → applyEvent .start s = s) ∧
  (∀ s t : State, step s = .next t → byteAtPc s 0 = 0x01 → step (applyEvent .start t) = .next t)

/-- An event that is not accepted has no effect (`70_reset_and_hazards.md`, the host interface); so only Reset changes a
faulted machine. -/
def Obligations.UnacceptedEventsDoNothing : Prop :=
  (∀ (e : Event) (s : State), ¬ accepts s e → applyEvent e s = s) ∧
  (∀ (e : Event) (s : State), s.fault ≠ none → (∀ p, e ≠ .reset p) → applyEvent e s = s)

/-! ### Memory -/

/-- R31: an access at an integer outside 0 to 255 raises AddressOutOfRange of that integer; inside, a read gives the cell and
a write changes the one cell and nothing else. -/
def Obligations.MemoryPrimitivesCheckTheirAddress : Prop :=
  (∀ (s : State) (n : Int) (v : Byte), n < 0 ∨ 255 < n →
    memRead s n = .error (.addressOutOfRange n) ∧ memWrite s n v = .error (.addressOutOfRange n)) ∧
  (∀ (s : State) (n : Nat) (v : Byte), n ≤ 255 → Memory.wf s.mem →
    memRead s n = .ok (Memory.read s.mem n) ∧
    ∃ m, memWrite s n v = .ok { s with mem := m } ∧ Memory.wf m ∧ Memory.read m n = v ∧
      ∀ b, b ≠ n → Memory.read m b = Memory.read s.mem b)

/-- An operand byte the instruction does not have is not read (`20_memory.md` section 8, decision D6): what is fetched depends
only on the bytes from `pc` to `pc + operand count`. -/
def Obligations.UnneededOperandBytesAreNotRead : Prop :=
  ∀ (s : State) (m : Memory) (d : OpEntry), decodeOpcode (byteAtPc s 0) = some d →
    (∀ k, k ≤ d.operandCount → Memory.read m (s.pc.toNat + k) = byteAtPc s k) →
    fetchDecode { s with mem := m } = fetchDecode s

/-- A store by PUSH or CALL is seen by the very next fetch (`20_memory.md` R40): the next opcode byte is the stored one if the
store hit the next `pc`, else what memory held. -/
def Obligations.StoresAreSeenByTheNextFetch : Prop :=
  (∀ (s : State) (a sp : Byte), Memory.wf s.mem → (ha : a.toNat < 8) → decSp s = .ok sp → s.pc.toNat + 2 ≤ 255 →
    ∃ t, exec (.push a) s = .next t ∧ t.pc = s.pc + 2 ∧
      byteAtPc t 0 = if t.pc = sp then (if a = 7 then sp else s.x[a.toNat]) else Memory.read s.mem t.pc.toNat) ∧
  (∀ (s : State) (a sp : Byte), Memory.wf s.mem → (ha : a.toNat < 8) → decSp s = .ok sp → s.pc.toNat + 2 ≤ 255 →
    ∃ t, exec (.call a) s = .next t ∧ t.pc = (if a = 7 then sp else s.x[a.toNat]) ∧
      byteAtPc t 0 = if t.pc = sp then s.pc + 2 else Memory.read s.mem t.pc.toNat)

/-! ### Frames -/

/-- HLT, LDI, PRN, POP, RET, JEQ, JNE, JMP, ADD, MUL and CMP store nothing: every byte of memory reads as before (`20_memory.md`
section 2, the accesses each instruction makes). -/
def Obligations.NonStoringInstructionsKeepMemory : Prop :=
  ∀ (i : Instr) (s t : State), ¬ Stores i → exec i s = .next t → ∀ b, Memory.read t.mem b = Memory.read s.mem b

/-- PUSH and CALL store one byte, at the decremented stack pointer `decSp s` that their meanings store to: every other byte of
memory reads as before, and every byte if that slot does not exist. -/
def Obligations.PushAndCallStoreOneByte : Prop :=
  ∀ (i : Instr) (a : Byte) (s t : State), i = .push a ∨ i = .call a → exec i s = .next t →
    (∀ sp, decSp s = .ok sp → ∀ b, b ≠ sp.toNat → Memory.read t.mem b = Memory.read s.mem b) ∧
    (∀ k, decSp s = .error k → ∀ b, Memory.read t.mem b = Memory.read s.mem b)

/-- The frame of the registers, for all 13 instructions: LDI, ADD and MUL may write register `a`, POP register `a` and register
7, PUSH and CALL register 7; every other register is unchanged (`10_state.md` R12). -/
def Obligations.RegistersOutsideTheDestinationsAreKept : Prop :=
  ∀ (i : Instr) (s t : State) (r : Fin 8), exec i s = .next t → r.val ∉ destRegs i → readReg t r = readReg s r

/-- The frame of the other state elements, for all 13 instructions: `ir` is unchanged by every meaning, `fl` and `flv` by all
but CMP, `run` by all but HLT, `out` by all but PRN, and `fault` by all that complete; one that records a fault changes
nothing else. -/
def Obligations.OtherElementsAreKept : Prop :=
  ∀ (i : Instr) (s t : State), exec i s = .next t →
    t.ir = s.ir ∧ ((∀ a b, i ≠ .cmp a b) → t.fl = s.fl ∧ t.flv = s.flv) ∧ (i ≠ .hlt → t.run = s.run) ∧
      ((∀ a, i ≠ .prn a) → t.out = s.out) ∧ (t.fault = s.fault ∨ ∃ k, t = { s with fault := some k })

/-! ### Whole-machine rules -/

/-- R17: `fl` is written by CMP alone and read by JEQ and JNE alone, and of it they read bit 0 (E) alone. A step of any other
instruction does not depend on `fl` and `flv`: with other flags it does the same and leaves them; JEQ and JNE do not depend
on bits 7 to 1; and what CMP leaves does not depend on the flags it found. -/
def Obligations.FlagsAreReadThroughBitZeroAlone : Prop :=
  (∀ s t : State, step s = .next t → byteAtPc s 0 ≠ 0xA7 → t.fl = s.fl ∧ t.flv = s.flv) ∧
  (∀ (s t : State) (f : Byte) (v : Bool), step s = .next t →
    byteAtPc s 0 ≠ 0xA7 → byteAtPc s 0 ≠ 0x55 → byteAtPc s 0 ≠ 0x56 →
    step { s with fl := f, flv := v } = .next { t with fl := f, flv := v }) ∧
  (∀ (s t : State) (f : Byte), step s = .next t → byteAtPc s 0 = 0x55 ∨ byteAtPc s 0 = 0x56 →
    f.getLsbD 0 = s.fl.getLsbD 0 → step { s with fl := f } = .next { t with fl := f }) ∧
  (∀ (s t : State) (f : Byte) (v : Bool), step s = .next t → byteAtPc s 0 = 0xA7 → t.fault = none →
    step { s with fl := f, flv := v } = .next t)

/-- Only HLT clears `run`, and it always does; every other step, a faulting one included, leaves it 1 (`10_state.md` section
7, conflict C5). -/
def Obligations.OnlyHltClearsRun : Prop :=
  ∀ s t : State, step s = .next t → (t.run = false ↔ byteAtPc s 0 = 0x01)

/-- Only PRN appends to `out`, one element, the value of the register it names; nothing else changes it and nothing reads it:
with another `out` the step does the same (`10_state.md` section 8). -/
def Obligations.OnlyPrnEmits : Prop :=
  (∀ s t : State, step s = .next t → byteAtPc s 0 ≠ 0x47 → t.out = s.out) ∧
  (∀ s t : State, step s = .next t → byteAtPc s 0 = 0x47 →
    (t.fault ≠ none ∧ t.out = s.out) ∨ ∃ r : Fin 8, r.val = (byteAtPc s 1).toNat ∧ t.out = s.out ++ [readReg s r]) ∧
  (∀ (s t : State) (o : List Byte), step s = .next t → ∃ e, t.out = s.out ++ e ∧
    step { s with out := o } = .next { t with out := o ++ e })

/-- `ir` receives the opcode byte at every step, and the value it held before influences nothing (`10_state.md` section 6,
decision D22). -/
def Obligations.InstructionRegisterIsTransient : Prop :=
  (∀ s t : State, step s = .next t → t.ir = Memory.read s.mem s.pc.toNat) ∧
  (∀ (s : State) (v : Byte), step { s with ir := v } = step s)

/-- Where an instruction that completes can start (`70_reset_and_hazards.md` R175, which infers it from R43): LDI, ADD, MUL and
CMP at or below 252; PRN, PUSH, POP, a JEQ or JNE that falls through, and CALL at or below 253; JMP and a taken JEQ or JNE at
or below 254. HLT and RET complete anywhere. CALL's opcode is log entry 1. -/
def Obligations.PlacementNearTheEndOfMemory : Prop :=
  (∀ s t : State, step s = .next t → t.fault = none →
    (byteAtPc s 0 = 0x82 ∨ byteAtPc s 0 = 0xA0 ∨ byteAtPc s 0 = 0xA2 ∨ byteAtPc s 0 = 0xA7 → s.pc.toNat ≤ 252) ∧
    (byteAtPc s 0 = 0x47 ∨ byteAtPc s 0 = 0x45 ∨ byteAtPc s 0 = 0x46 ∨ byteAtPc s 0 = callOpcode → s.pc.toNat ≤ 253) ∧
    (byteAtPc s 0 = 0x55 → s.fl.getLsbD 0 = false → s.pc.toNat ≤ 253) ∧
    (byteAtPc s 0 = 0x56 → s.fl.getLsbD 0 = true → s.pc.toNat ≤ 253) ∧
    (byteAtPc s 0 = 0x54 ∨ byteAtPc s 0 = 0x55 ∨ byteAtPc s 0 = 0x56 → s.pc.toNat ≤ 254)) ∧
  (∀ s : State, Running s → byteAtPc s 0 = 0x01 ∨ byteAtPc s 0 = 0x11 → ∃ t, step s = .next t ∧ t.fault = none)

/-! ### Operand checks -/

/-- R56: a register operand byte of 8 to 255 raises RegisterIndexOutOfRange with that value before any write, for every register
operand of every instruction, a JEQ or JNE that is not taken included; operand `a` is checked before operand `b`, and
LDI's immediate is not checked; the values 0 to 7 are legal and never raise it (decision D7). -/
def Obligations.RegisterBytesAboveSevenFault : Prop :=
  (∀ (i : Instr) (s : State) (v : Byte), i.regOperands.find? (fun r => decide (8 ≤ r.toNat)) = some v →
    exec i s = .next { s with fault := some (.registerIndexOutOfRange v) }) ∧
  (∀ (i : Instr) (s t : State) (v : Byte), i.WellFormed → s.fault = none → exec i s = .next t →
    t.fault ≠ some (.registerIndexOutOfRange v))

/-- R102: the implicit decrement and increment of the stack pointer do not wrap: PUSH and CALL with `x[7] = 0` raise
AddressOutOfRange(-1), POP whose stack pointer would become 256 raises AddressOutOfRange(256) and nothing is written
(decision D5). -/
def Obligations.StackPointerNeverWraps : Prop :=
  (∀ (s : State) (a : Byte), a.toNat < 8 → s.x[7] = 0 →
    exec (.push a) s = .next { s with fault := some (.addressOutOfRange (-1)) } ∧
    exec (.call a) s = .next { s with fault := some (.addressOutOfRange (-1)) }) ∧
  (∀ (s : State) (a : Byte), a.toNat < 8 → a ≠ 7 → s.x[7] = 255 →
    exec (.pop a) s = .next { s with fault := some (.addressOutOfRange 256) }) ∧
  (∀ s : State, Memory.read s.mem s.x[7].toNat = 255 →
    exec (.pop 7) s = .next { s with fault := some (.addressOutOfRange 256) })

/-! ### What each instruction completes with -/

/-- HLT completes in every state: `run <- 0` and nothing else (`41_system_and_data.md`). -/
def Obligations.HltCompletes : Prop :=
  ∀ s : State, exec .hlt s = .next { s with run := false }

/-- LDI completes with `x[a] <- b` and `pc + 3` for a register `a` and `pc` at most 252 (`41_system_and_data.md`). -/
def Obligations.LdiCompletes : Prop :=
  ∀ (s : State) (a b : Byte), (ha : a.toNat < 8) → s.pc.toNat + 3 ≤ 255 →
    exec (.ldi a b) s = .next { s with x := s.x.set a.toNat b, pc := s.pc + 3 }

/-- PRN completes with `x[a]` appended to `out` and `pc + 2` (`41_system_and_data.md`). -/
def Obligations.PrnCompletes : Prop :=
  ∀ (s : State) (a : Byte), (ha : a.toNat < 8) → s.pc.toNat + 2 ≤ 255 →
    exec (.prn a) s = .next { s with out := s.out ++ [s.x[a.toNat]], pc := s.pc + 2 }

/-- PUSH completes with `x[7] - 1` in `x[7]`, the register (read after the decrement) in the cell it points at, and `pc + 2`
(`42_stack.md`). -/
def Obligations.PushCompletes : Prop :=
  ∀ (s : State) (a : Byte), (ha : a.toNat < 8) → s.x[7] ≠ 0 → s.pc.toNat + 2 ≤ 255 →
    exec (.push a) s = .next { s with
      x := s.x.set 7 (s.x[7] - 1),
      mem := Memory.write s.mem (s.x[7] - 1).toNat (if a = 7 then s.x[7] - 1 else s.x[a.toNat]),
      pc := s.pc + 2 }

/-- POP completes with the cell at `x[7]` in register `a`, the stack pointer after that write incremented, and `pc + 2`
(`42_stack.md`). -/
def Obligations.PopCompletes : Prop :=
  ∀ (s : State) (a v : Byte), (ha : a.toNat < 8) → v = Memory.read s.mem s.x[7].toNat →
    (if a = 7 then v else s.x[7]) ≠ 255 → s.pc.toNat + 2 ≤ 255 →
    exec (.pop a) s = .next { s with
      x := (s.x.set a.toNat v).set 7 ((if a = 7 then v else s.x[7]) + 1), pc := s.pc + 2 }

/-- CALL completes with `x[7] - 1` in `x[7]`, the return address `pc + 2` in the cell it points at, and `pc` from the register
read after the decrement (`43_control_transfer.md`). -/
def Obligations.CallCompletes : Prop :=
  ∀ (s : State) (a : Byte), (ha : a.toNat < 8) → s.x[7] ≠ 0 → s.pc.toNat + 2 ≤ 255 →
    exec (.call a) s = .next { s with
      x := s.x.set 7 (s.x[7] - 1),
      mem := Memory.write s.mem (s.x[7] - 1).toNat (s.pc + 2),
      pc := if a = 7 then s.x[7] - 1 else s.x[a.toNat] }

/-- RET completes in every state: `pc` from the cell at `x[7]`, and nothing else changed, `x[7]` included
(`43_control_transfer.md`, decision D11). -/
def Obligations.RetCompletes : Prop :=
  ∀ s : State, exec .ret s = .next { s with pc := Memory.read s.mem s.x[7].toNat }

/-- JEQ completes when `flv = 1`: to `x[a]` if E is set, else to `pc + 2` where that exists (`43_control_transfer.md`). -/
def Obligations.JeqCompletes : Prop :=
  ∀ (s : State) (a : Byte), (ha : a.toNat < 8) → s.flv = true → (s.fl.getLsbD 0 = false → s.pc.toNat + 2 ≤ 255) →
    exec (.jeq a) s = .next { s with pc := if s.fl.getLsbD 0 = true then s.x[a.toNat] else s.pc + 2 }

/-- JNE completes when `flv = 1`: to `x[a]` if E is clear, else to `pc + 2` where that exists (`43_control_transfer.md`). -/
def Obligations.JneCompletes : Prop :=
  ∀ (s : State) (a : Byte), (ha : a.toNat < 8) → s.flv = true → (s.fl.getLsbD 0 = true → s.pc.toNat + 2 ≤ 255) →
    exec (.jne a) s = .next { s with pc := if s.fl.getLsbD 0 = false then s.x[a.toNat] else s.pc + 2 }

/-- JMP completes for every register `a`, whatever the flags (`43_control_transfer.md`). -/
def Obligations.JmpCompletes : Prop :=
  ∀ (s : State) (a : Byte), (ha : a.toNat < 8) → exec (.jmp a) s = .next { s with pc := s.x[a.toNat] }

/-- ADD completes with the sum modulo 256 in register `a` and `pc + 3` (`44_alu.md`). -/
def Obligations.AddCompletes : Prop :=
  ∀ (s : State) (a b : Byte), (ha : a.toNat < 8) → (hb : b.toNat < 8) → s.pc.toNat + 3 ≤ 255 →
    exec (.add a b) s = .next { s with
      x := s.x.set a.toNat (BitVec.ofNat 8 ((s.x[a.toNat].toNat + s.x[b.toNat].toNat) % 256)), pc := s.pc + 3 }

/-- MUL completes with the low byte of the product in register `a` and `pc + 3` (`44_alu.md`). -/
def Obligations.MulCompletes : Prop :=
  ∀ (s : State) (a b : Byte), (ha : a.toNat < 8) → (hb : b.toNat < 8) → s.pc.toNat + 3 ≤ 255 →
    exec (.mul a b) s = .next { s with
      x := s.x.set a.toNat (BitVec.ofNat 8 ((s.x[a.toNat].toNat * s.x[b.toNat].toNat) % 256)), pc := s.pc + 3 }

/-- CMP completes with the whole of `fl` written (1, 2 or 4, unsigned), `flv <- 1` and `pc + 3` (`44_alu.md`, decisions D10,
D24). -/
def Obligations.CmpCompletes : Prop :=
  ∀ (s : State) (a b : Byte), (ha : a.toNat < 8) → (hb : b.toNat < 8) → s.pc.toNat + 3 ≤ 255 →
    exec (.cmp a b) s = .next { s with
      fl := if s.x[a.toNat] = s.x[b.toNat] then 0b00000001
            else if s.x[b.toNat].toNat < s.x[a.toNat].toNat then 0b00000010 else 0b00000100,
      flv := true, pc := s.pc + 3 }

/-! ### The instruction rules, as one step from memory: encoding, operands, effect, flags, faults in their order -/

/-- R90: HLT, its stop, and a Start after it, which executes the same HLT again. -/
def Obligations.HltStepsByItsRule : Prop :=
  ∀ s : State, Running s → byteAtPc s 0 = 0b00000001 →
    step s = .next { s with ir := 0b00000001, run := false } ∧
    step { s with ir := 0b00000001, run := false } = .fault .notRunning ∧
    step (applyEvent .start { s with ir := 0b00000001, run := false }) = .next { s with ir := 0b00000001, run := false }

/-- R91 (its faults: decisions D4, D7). -/
def Obligations.LdiStepsByItsRule : Prop :=
  ∀ (s : State) (a b : Byte), Running s → byteAtPc s 0 = 0b10000010 → byteAtPc s 1 = a → byteAtPc s 2 = b →
    step s =
      if s.pc.toNat + 2 > 255 then faultsWith s (.addressOutOfRange 256)
      else if ha : a.toNat < 8 then
        if s.pc.toNat + 3 > 255 then faultsWith s (.addressOutOfRange (s.pc.toNat + 3))
        else .next { s with ir := 0b10000010, x := s.x.set a.toNat b, pc := s.pc + 3 }
      else faultsWith s (.registerIndexOutOfRange a)

/-- R92 (its faults: decisions D4, D7). -/
def Obligations.PrnStepsByItsRule : Prop :=
  ∀ (s : State) (a : Byte), Running s → byteAtPc s 0 = 0b01000111 → byteAtPc s 1 = a →
    step s =
      if s.pc.toNat + 1 > 255 then faultsWith s (.addressOutOfRange (s.pc.toNat + 1))
      else if ha : a.toNat < 8 then
        if s.pc.toNat + 2 > 255 then faultsWith s (.addressOutOfRange (s.pc.toNat + 2))
        else .next { s with ir := 0b01000111, out := s.out ++ [s.x[a.toNat]], pc := s.pc + 2 }
      else faultsWith s (.registerIndexOutOfRange a)

/-- R100 (its faults: decisions D4, D5, D7). -/
def Obligations.PushStepsByItsRule : Prop :=
  ∀ (s : State) (a : Byte), Running s → byteAtPc s 0 = 0b01000101 → byteAtPc s 1 = a →
    step s =
      if s.pc.toNat + 1 > 255 then faultsWith s (.addressOutOfRange (s.pc.toNat + 1))
      else if ha : a.toNat < 8 then
        if s.x[7].toNat = 0 then faultsWith s (.addressOutOfRange (-1))
        else if s.pc.toNat + 2 > 255 then faultsWith s (.addressOutOfRange (s.pc.toNat + 2))
        else .next { s with
          ir := 0b01000101,
          x := s.x.set 7 (s.x[7] - 1),
          mem := Memory.write s.mem (s.x[7] - 1).toNat (if a = 7 then s.x[7] - 1 else s.x[a.toNat]),
          pc := s.pc + 2 }
      else faultsWith s (.registerIndexOutOfRange a)

/-- R101 (its faults: decisions D4, D5, D7). -/
def Obligations.PopStepsByItsRule : Prop :=
  ∀ (s : State) (a v : Byte), Running s → byteAtPc s 0 = 0b01000110 → byteAtPc s 1 = a →
    v = Memory.read s.mem s.x[7].toNat →
    step s =
      if s.pc.toNat + 1 > 255 then faultsWith s (.addressOutOfRange (s.pc.toNat + 1))
      else if ha : a.toNat < 8 then
        if (if a = 7 then v else s.x[7]).toNat + 1 > 255 then faultsWith s (.addressOutOfRange 256)
        else if s.pc.toNat + 2 > 255 then faultsWith s (.addressOutOfRange (s.pc.toNat + 2))
        else .next { s with
          ir := 0b01000110,
          x := (s.x.set a.toNat v).set 7 ((if a = 7 then v else s.x[7]) + 1),
          pc := s.pc + 2 }
      else faultsWith s (.registerIndexOutOfRange a)

/-- The CALL rule of `43_control_transfer.md`, at the opcode the model takes for CALL: log entry 1 (decision D1); the fault of
the return address is decision D16. -/
def Obligations.CallStepsByItsRule : Prop :=
  ∀ (s : State) (a : Byte), Running s → byteAtPc s 0 = callOpcode → byteAtPc s 1 = a →
    step s =
      if s.pc.toNat + 1 > 255 then faultsWith s (.addressOutOfRange (s.pc.toNat + 1))
      else if ha : a.toNat < 8 then
        if s.x[7].toNat = 0 then faultsWith s (.addressOutOfRange (-1))
        else if s.pc.toNat + 2 > 255 then faultsWith s (.addressOutOfRange (s.pc.toNat + 2))
        else .next { s with
          ir := callOpcode,
          x := s.x.set 7 (s.x[7] - 1),
          mem := Memory.write s.mem (s.x[7] - 1).toNat (s.pc + 2),
          pc := if a = 7 then s.x[7] - 1 else s.x[a.toNat] }
      else faultsWith s (.registerIndexOutOfRange a)

/-- R111 (decision D11: RET leaves `x[7]`). -/
def Obligations.RetStepsByItsRule : Prop :=
  ∀ s : State, Running s → byteAtPc s 0 = 0b00010001 →
    step s = .next { s with ir := 0b00010001, pc := Memory.read s.mem s.x[7].toNat }

/-- R112 (its faults: decisions D4, D7, D8). -/
def Obligations.JeqStepsByItsRule : Prop :=
  ∀ (s : State) (a : Byte), Running s → byteAtPc s 0 = 0b01010101 → byteAtPc s 1 = a →
    step s =
      if s.pc.toNat + 1 > 255 then faultsWith s (.addressOutOfRange (s.pc.toNat + 1))
      else if ha : a.toNat < 8 then
        if s.flv = false then faultsWith s .undefinedFlagsRead
        else if s.fl.getLsbD 0 = true then .next { s with ir := 0b01010101, pc := s.x[a.toNat] }
        else if s.pc.toNat + 2 > 255 then faultsWith s (.addressOutOfRange (s.pc.toNat + 2))
        else .next { s with ir := 0b01010101, pc := s.pc + 2 }
      else faultsWith s (.registerIndexOutOfRange a)

/-- R113 (its faults: decisions D4, D7, D8). -/
def Obligations.JneStepsByItsRule : Prop :=
  ∀ (s : State) (a : Byte), Running s → byteAtPc s 0 = 0b01010110 → byteAtPc s 1 = a →
    step s =
      if s.pc.toNat + 1 > 255 then faultsWith s (.addressOutOfRange (s.pc.toNat + 1))
      else if ha : a.toNat < 8 then
        if s.flv = false then faultsWith s .undefinedFlagsRead
        else if s.fl.getLsbD 0 = false then .next { s with ir := 0b01010110, pc := s.x[a.toNat] }
        else if s.pc.toNat + 2 > 255 then faultsWith s (.addressOutOfRange (s.pc.toNat + 2))
        else .next { s with ir := 0b01010110, pc := s.pc + 2 }
      else faultsWith s (.registerIndexOutOfRange a)

/-- R114 (its faults: decision D7). -/
def Obligations.JmpStepsByItsRule : Prop :=
  ∀ (s : State) (a : Byte), Running s → byteAtPc s 0 = 0b01010100 → byteAtPc s 1 = a →
    step s =
      if s.pc.toNat + 1 > 255 then faultsWith s (.addressOutOfRange (s.pc.toNat + 1))
      else if ha : a.toNat < 8 then .next { s with ir := 0b01010100, pc := s.x[a.toNat] }
      else faultsWith s (.registerIndexOutOfRange a)

/-- R126 (its faults: decisions D4, D7). -/
def Obligations.AddStepsByItsRule : Prop :=
  ∀ (s : State) (a b : Byte), Running s → byteAtPc s 0 = 0b10100000 → byteAtPc s 1 = a → byteAtPc s 2 = b →
    step s =
      if s.pc.toNat + 2 > 255 then faultsWith s (.addressOutOfRange 256)
      else if ha : a.toNat < 8 then
        if hb : b.toNat < 8 then
          if s.pc.toNat + 3 > 255 then faultsWith s (.addressOutOfRange (s.pc.toNat + 3))
          else .next { s with
            ir := 0b10100000,
            x := s.x.set a.toNat (BitVec.ofNat 8 ((s.x[a.toNat].toNat + s.x[b.toNat].toNat) % 256)),
            pc := s.pc + 3 }
        else faultsWith s (.registerIndexOutOfRange b)
      else faultsWith s (.registerIndexOutOfRange a)

/-- R127 (its faults: decisions D4, D7). -/
def Obligations.MulStepsByItsRule : Prop :=
  ∀ (s : State) (a b : Byte), Running s → byteAtPc s 0 = 0b10100010 → byteAtPc s 1 = a → byteAtPc s 2 = b →
    step s =
      if s.pc.toNat + 2 > 255 then faultsWith s (.addressOutOfRange 256)
      else if ha : a.toNat < 8 then
        if hb : b.toNat < 8 then
          if s.pc.toNat + 3 > 255 then faultsWith s (.addressOutOfRange (s.pc.toNat + 3))
          else .next { s with
            ir := 0b10100010,
            x := s.x.set a.toNat (BitVec.ofNat 8 ((s.x[a.toNat].toNat * s.x[b.toNat].toNat) % 256)),
            pc := s.pc + 3 }
        else faultsWith s (.registerIndexOutOfRange b)
      else faultsWith s (.registerIndexOutOfRange a)

/-- R128 (unsigned comparison is decision D10, bits 7 to 3 written 0 decision D24; its faults: decisions D4, D7). -/
def Obligations.CmpStepsByItsRule : Prop :=
  ∀ (s : State) (a b : Byte), Running s → byteAtPc s 0 = 0b10100111 → byteAtPc s 1 = a → byteAtPc s 2 = b →
    step s =
      if s.pc.toNat + 2 > 255 then faultsWith s (.addressOutOfRange 256)
      else if ha : a.toNat < 8 then
        if hb : b.toNat < 8 then
          if s.pc.toNat + 3 > 255 then faultsWith s (.addressOutOfRange (s.pc.toNat + 3))
          else .next { s with
            ir := 0b10100111,
            fl := if s.x[a.toNat] = s.x[b.toNat] then 0b00000001
                  else if s.x[b.toNat].toNat < s.x[a.toNat].toNat then 0b00000010 else 0b00000100,
            flv := true,
            pc := s.pc + 3 }
        else faultsWith s (.registerIndexOutOfRange b)
      else faultsWith s (.registerIndexOutOfRange a)

/-! ### Sequences -/

/-- PUSH then POP of the same register, register 7 included, gives back every register, the stack pointer among them, and
advances `pc` by 4 (`42_stack.md`, the source's round trip). -/
def Obligations.PushThenPopRoundTrips : Prop :=
  ∀ (s : State) (a : Byte), Memory.wf s.mem → a.toNat < 8 → s.x[7] ≠ 0 → s.pc.toNat + 4 ≤ 255 →
    ∃ t u, exec (.push a) s = .next t ∧ exec (.pop a) t = .next u ∧ u.x = s.x ∧ u.pc = s.pc + 4

/-- After a CALL, a RET that finds the stack pointer and memory as the CALL left them returns to the instruction after the
CALL and leaves the stack pointer one lower than before the CALL (`43_control_transfer.md` R111 corner case 1, R117). -/
def Obligations.CallThenRetReturnsAndLeaksOneByte : Prop :=
  ∀ (s : State) (a : Byte), Memory.wf s.mem → a.toNat < 8 → s.x[7] ≠ 0 → s.pc.toNat + 2 ≤ 255 →
    ∃ t, exec (.call a) s = .next t ∧
      ∀ u : State, u.mem = t.mem → u.x[7] = t.x[7] →
        ∃ v, exec .ret u = .next v ∧ v.pc = s.pc + 2 ∧ v.x[7] = s.x[7] - 1

/-- R131: the complete outcome table of CMP, with what a JEQ and a JNE do after it. -/
def Obligations.CmpOutcomeTable : Prop :=
  ∀ (s : State) (a b c : Byte), (ha : a.toNat < 8) → (hb : b.toNat < 8) → (hc : c.toNat < 8) → s.pc.toNat + 5 ≤ 255 →
    ∃ t, exec (.cmp a b) s = .next t ∧
      (s.x[a.toNat].toNat = s.x[b.toNat].toNat → t.fl = 0b00000001 ∧
        exec (.jeq c) t = .next { t with pc := s.x[c.toNat] } ∧ exec (.jne c) t = .next { t with pc := t.pc + 2 }) ∧
      (s.x[a.toNat].toNat > s.x[b.toNat].toNat → t.fl = 0b00000010 ∧
        exec (.jeq c) t = .next { t with pc := t.pc + 2 } ∧ exec (.jne c) t = .next { t with pc := s.x[c.toNat] }) ∧
      (s.x[a.toNat].toNat < s.x[b.toNat].toNat → t.fl = 0b00000100 ∧
        exec (.jeq c) t = .next { t with pc := t.pc + 2 } ∧ exec (.jne c) t = .next { t with pc := s.x[c.toNat] })
end

