-- ==== Sys2Proof/Laws/Memory.lean ====
section
/-! SUPPORT. The laws of memory: read after write, the canonical form is kept by every memory operation, and the empty memory
of the reset state has it. -/

namespace Sys2Proof.Machine

@[simp] theorem Memory.read_nil (a : Nat) : Memory.read [] a = unlistedByte := rfl

/-- Below every listed address a memory reads as unlisted. -/
theorem Memory.read_below (m : Memory) (a : Nat) (h : ∀ c ∈ m, a < c.1) : Memory.read m a = unlistedByte := by
  induction m with
  | nil => rfl
  | cons c rest ih =>
    obtain ⟨k, w⟩ := c
    have hk : a < k := h (k, w) (by simp)
    have : k ≠ a := by omega
    simp only [Memory.read, this, if_false]
    exact ih fun d hd => h d (by simp [hd])

/-- A write at `a` is read at `a`, and leaves every other address as it was, in a memory whose addresses rise. -/
theorem Memory.read_write_of_sorted (m : Memory) (hm : m.Pairwise (fun c d => c.1 < d.1)) (a b : Nat) (v : Byte) :
    Memory.read (Memory.write m a v) b = if b = a then v else Memory.read m b := by
  induction m with
  | nil =>
    by_cases hv : v = unlistedByte <;> by_cases hb : b = a <;>
      simp_all [Memory.write, Memory.read, eq_comm]
  | cons c rest ih =>
    obtain ⟨k, w⟩ := c
    obtain ⟨hlow, hrest⟩ := List.pairwise_cons.mp hm
    have ih := ih hrest
    simp only [Memory.write]
    split
    · next hka =>
      simp only [Memory.read]
      split
      · next hkb => subst hkb; simp [show k ≠ a by omega]
      · exact ih
    · split
      · next hka hkeq =>
        subst hkeq
        by_cases hv : v = unlistedByte
        · simp only [hv, if_true, Memory.read]
          by_cases hb : b = k
          · simp [hb, Memory.read_below rest k hlow]
          · simp [hb, Ne.symm hb]
        · simp only [hv, if_false, Memory.read]
          by_cases hb : b = k
          · simp [hb]
          · simp [hb, Ne.symm hb]
      · next hka hkne =>
        have hlt : a < k := by omega
        by_cases hv : v = unlistedByte
        · simp only [hv, if_true]
          by_cases hb : b = a
          · subst hb
            rw [Memory.read_below _ b]
            · simp
            · intro d hd
              rcases List.mem_cons.mp hd with rfl | hd
              · exact hlt
              · exact Nat.lt_trans hlt (hlow d hd)
          · simp [hb]
        · simp only [hv, if_false]
          by_cases hb : b = a
          · simp [hb, Memory.read]
          · simp [hb, Memory.read, Ne.symm hb]

/-- Read after write at the same address. -/
theorem Memory.read_write_same (m : Memory) (hm : Memory.wf m) (a : Nat) (v : Byte) :
    Memory.read (Memory.write m a v) a = v := by
  simp [Memory.read_write_of_sorted m hm.1]

/-- A write leaves every other address alone, in any memory. -/
theorem Memory.read_write_other (m : Memory) (a b : Nat) (v : Byte) (h : b ≠ a) :
    Memory.read (Memory.write m a v) b = Memory.read m b := by
  induction m with
  | nil =>
    by_cases hv : v = unlistedByte <;> simp [Memory.write, Memory.read, hv, Ne.symm h]
  | cons c rest ih =>
    obtain ⟨k, w⟩ := c
    simp only [Memory.write]
    split
    · simp only [Memory.read]; split
      · rfl
      · exact ih
    · split
      · next hk =>
        subst hk
        by_cases hv : v = unlistedByte <;> simp [hv, Memory.read, Ne.symm h]
      · by_cases hv : v = unlistedByte <;> simp [hv, Memory.read, Ne.symm h]

/-- Every entry of a written memory is the new one or an old one. -/
theorem Memory.mem_write (m : Memory) (a : Nat) (v : Byte) (c : Host.Cell) (h : c ∈ Memory.write m a v) :
    (c = (a, v) ∧ v ≠ unlistedByte) ∨ c ∈ m := by
  induction m with
  | nil =>
    by_cases hv : v = unlistedByte <;> simp_all [Memory.write]
  | cons d rest ih =>
    obtain ⟨k, w⟩ := d
    simp only [Memory.write] at h
    split at h
    · rcases List.mem_cons.mp h with rfl | h
      · simp
      · rcases ih h with h | h
        · exact .inl h
        · exact .inr (List.mem_cons_of_mem _ h)
    · split at h <;> split at h <;> simp_all
      rcases h with h | h <;> simp [h]

/-- A write below `MEM_SIZE` keeps the canonical form. -/
theorem Memory.wf_write (m : Memory) (hm : Memory.wf m) (a : Nat) (v : Byte) (ha : a < Config.memSize) :
    Memory.wf (Memory.write m a v) := by
  refine ⟨?_, ?_⟩
  · obtain ⟨hs, -⟩ := hm
    induction m with
    | nil => by_cases hv : v = unlistedByte <;> simp [Memory.write, hv]
    | cons c rest ih =>
      obtain ⟨k, w⟩ := c
      obtain ⟨hlow, hrest⟩ := List.pairwise_cons.mp hs
      simp only [Memory.write]
      split
      · next hka =>
        refine List.pairwise_cons.mpr ⟨fun d hd => ?_, ih hrest⟩
        rcases Memory.mem_write rest a v d hd with ⟨rfl, -⟩ | hd
        · exact hka
        · exact hlow d hd
      · split
        · next hkeq =>
          subst hkeq
          split
          · exact hrest
          · exact List.pairwise_cons.mpr ⟨hlow, hrest⟩
        · next hka hkne =>
          have hlt : a < k := by omega
          split
          · exact hs
          · refine List.pairwise_cons.mpr ⟨fun d hd => ?_, hs⟩
            rcases List.mem_cons.mp hd with rfl | hd
            · exact hlt
            · exact Nat.lt_trans hlt (hlow d hd)
  · intro c hc
    rcases Memory.mem_write m a v c hc with ⟨rfl, hv⟩ | hc
    · exact ⟨ha, hv⟩
    · exact hm.2 c hc

/-- Placing bytes keeps the canonical form. -/
theorem Memory.wf_place (bytes : List Byte) (m : Memory) (hm : Memory.wf m) (a : Nat) :
    Memory.wf (Memory.place m a bytes) := by
  induction bytes generalizing m a with
  | nil => exact hm
  | cons v rest ih =>
    simp only [Memory.place]
    split
    · next h => exact ih _ (Memory.wf_write m hm a v h) _
    · exact ih _ hm _

/-- Placing bytes at `a` leaves every address below `a` alone. -/
theorem Memory.read_place_below (bytes : List Byte) (m : Memory) (a b : Nat) (h : b < a) :
    Memory.read (Memory.place m a bytes) b = Memory.read m b := by
  induction bytes generalizing m a with
  | nil => rfl
  | cons v rest ih =>
    simp only [Memory.place]
    rw [ih _ _ (by omega)]
    split
    · exact Memory.read_write_other m a b v (by omega)
    · rfl

/-- What a placed memory reads as, cell by cell (R172). -/
theorem Memory.read_place (bytes : List Byte) (m : Memory) (hm : Memory.wf m) (a b : Nat) (hb : b < Config.memSize) :
    Memory.read (Memory.place m a bytes) b =
      if a ≤ b then bytes.getD (b - a) (Memory.read m b) else Memory.read m b := by
  induction bytes generalizing m a with
  | nil => simp [Memory.place]
  | cons v rest ih =>
    simp only [Memory.place]
    have hwf : Memory.wf (if a < Config.memSize then Memory.write m a v else m) := by
      split
      · next h => exact Memory.wf_write m hm a v h
      · exact hm
    rw [ih _ hwf]
    by_cases hab : a ≤ b
    · rcases Nat.lt_or_eq_of_le hab with hlt | rfl
      · have hread : Memory.read (if a < Config.memSize then Memory.write m a v else m) b = Memory.read m b := by
          split
          · exact Memory.read_write_other m a b v (by omega)
          · rfl
        obtain ⟨n, hn⟩ : ∃ n, b - a = n + 1 := ⟨b - a - 1, by omega⟩
        have hn' : b - (a + 1) = n := by omega
        simp [hread, hab, show a + 1 ≤ b by omega, hn, hn']
      · simp [hb, Memory.read_write_same m hm, show ¬ a + 1 ≤ a by omega]
    · have hread : Memory.read (if a < Config.memSize then Memory.write m a v else m) b = Memory.read m b := by
        split
        · exact Memory.read_write_other m a b v (by omega)
        · rfl
      simp [hab, show ¬ a + 1 ≤ b by omega, hread]

/-- The empty memory is canonical. -/
theorem Memory.wf_nil : Memory.wf [] := by decide

/-- The reset state's memory is canonical (R25). -/
theorem State.reset_mem_wf : Memory.wf State.reset.mem := by decide

end Sys2Proof.Machine
end

