-- ==== Sys2Proof/Laws/Decode.lean ====
section
/-! SUPPORT. The opcode map looked up at each opcode, and the fetch of one step in the phases of `40_cycle.md` R71 to R75. -/

namespace Sys2Proof

/-- The entry of each opcode (R54). -/
theorem decodeOpcode_opcodeOf (m : Mnemonic) :
    ∃ d, decodeOpcode (opcodeOf m) = some d ∧ d.mnemonic = m ∧ (isAlu (opcodeOf m) = true ↔ d.cls = .alu) := by
  cases m <;> exact ⟨_, rfl, rfl, by decide⟩

/-- A byte with an entry is one of the rows. -/
theorem decodeOpcode_mem {op : Byte} {d : OpEntry} (h : decodeOpcode op = some d) : (op, d) ∈ opcodeTable := by
  unfold decodeOpcode at h
  obtain ⟨row, hrow, rfl⟩ := Option.map_eq_some_iff.mp h
  have heq : row.1 = op := by simpa using List.find?_some hrow
  have := List.mem_of_find?_eq_some hrow
  rw [← heq]
  exact this

/-- A byte with an entry is the opcode of that entry's mnemonic. -/
theorem eq_opcodeOf_of_decodeOpcode {op : Byte} {d : OpEntry} (h : decodeOpcode op = some d) :
    op = opcodeOf d.mnemonic := by
  have hall : ∀ row ∈ opcodeTable, row.1 = opcodeOf row.2.mnemonic := by decide
  exact hall _ (decodeOpcode_mem h)

/-- Bit 5 is set exactly in the entries of class ALU (R52, R54), so the ALU support check never fails. -/
theorem isAlu_iff_of_decodeOpcode {op : Byte} {d : OpEntry} (h : decodeOpcode op = some d) :
    isAlu op = true ↔ d.cls = .alu := by
  have hall : ∀ row ∈ opcodeTable, (isAlu row.1 = true ↔ row.2.cls = .alu) := by decide
  exact hall _ (decodeOpcode_mem h)

/-- Operand counts are 0, 1 or 2 (R50). -/
theorem operandCount_cases {op : Byte} {d : OpEntry} (h : decodeOpcode op = some d) :
    d.operandCount = 0 ∨ d.operandCount = 1 ∨ d.operandCount = 2 := by
  have hall : ∀ row ∈ opcodeTable,
      row.2.operandCount = 0 ∨ row.2.operandCount = 1 ∨ row.2.operandCount = 2 := by decide
  exact hall _ (decodeOpcode_mem h)

/-- Decoding a byte without an entry. -/
theorem decode_unknown {op : Byte} (rest : List Byte) (h : decodeOpcode op = none) :
    decode (op :: rest) = .error (.unknownOpcode op) := by simp [decode, h]

/-- Decoding a byte with an entry is reading its operands. -/
theorem decode_known {op : Byte} {d : OpEntry} (rest : List Byte) (h : decodeOpcode op = some d) :
    decode (op :: rest) =
      (takeOperands d.operandCount rest).map (fun o => (buildInstr d.mnemonic o.1 o.2.1, o.2.2)) := by
  have hno : ¬ (isAlu op = true ∧ d.cls ≠ .alu) := fun hc => hc.2 ((isAlu_iff_of_decodeOpcode h).mp hc.1)
  simp only [decode, h, if_neg hno]
  cases takeOperands d.operandCount rest <;> rfl

end Sys2Proof

namespace Sys2Proof.Machine

variable (s : State)

/-- The cells from `pc` up begin with the opcode byte. -/
theorem cellsFrom_pc :
    Memory.cellsFrom s.mem s.pc.toNat 3 = byteAtPc s 0 :: Memory.cellsFrom s.mem (s.pc.toNat + 1) 2 := by
  have h : s.pc.toNat < Config.memSize := s.pc.isLt
  rw [Memory.cellsFrom, if_pos h]
  rfl

/-- Fetch of a byte without an entry (R72). -/
theorem fetchDecode_unknown (h : decodeOpcode (byteAtPc s 0) = none) :
    fetchDecode s = .error (.unknownOpcode (byteAtPc s 0)) := by
  simp only [fetchDecode, cellsFrom_pc, decode_unknown _ h, decodeFault]

/-- Fetch of a byte with an entry is the operand phase (R75). -/
theorem fetchDecode_known {d : OpEntry} (h : decodeOpcode (byteAtPc s 0) = some d) :
    fetchDecode s =
      match takeOperands d.operandCount (Memory.cellsFrom s.mem (s.pc.toNat + 1) 2) with
      | .ok (a, b, _) => .ok (buildInstr d.mnemonic a b)
      | .error e => .error (decodeFault s.pc e) := by
  rw [fetchDecode, cellsFrom_pc, decode_known _ h]
  cases takeOperands d.operandCount (Memory.cellsFrom s.mem (s.pc.toNat + 1) 2) <;> rfl

/-- The two cells above `pc`: both, one or none lie within memory. -/
theorem cellsFrom_operands :
    Memory.cellsFrom s.mem (s.pc.toNat + 1) 2 =
      if s.pc.toNat + 1 > 255 then []
      else if s.pc.toNat + 2 > 255 then [byteAtPc s 1]
      else [byteAtPc s 1, byteAtPc s 2] := by
  by_cases h1 : s.pc.toNat + 1 > 255
  · rw [if_pos h1, Memory.cellsFrom, Config.memSize, if_neg (by omega)]
  · rw [if_neg h1, Memory.cellsFrom, Config.memSize, if_pos (by omega)]
    by_cases h2 : s.pc.toNat + 2 > 255
    · rw [if_pos h2, Memory.cellsFrom, Config.memSize, if_neg (by omega)]
      rfl
    · rw [if_neg h2, Memory.cellsFrom, Config.memSize, if_pos (by omega)]
      rfl

/-- Fetch of an instruction without operands (R75). -/
theorem fetchDecode_count_zero {d : OpEntry} (h : decodeOpcode (byteAtPc s 0) = some d) (hn : d.operandCount = 0) :
    fetchDecode s = .ok (buildInstr d.mnemonic 0 0) := by
  rw [fetchDecode_known s h, hn]
  rfl

/-- Fetch of an instruction with one operand: the operand byte is needed (R75). -/
theorem fetchDecode_count_one {d : OpEntry} (h : decodeOpcode (byteAtPc s 0) = some d) (hn : d.operandCount = 1) :
    fetchDecode s =
      if s.pc.toNat + 1 > 255 then .error (.addressOutOfRange 256)
      else .ok (buildInstr d.mnemonic (byteAtPc s 1) 0) := by
  have hlt := s.pc.isLt
  rw [fetchDecode_known s h, hn, cellsFrom_operands]
  by_cases hp : s.pc.toNat + 1 > 255
  · have : s.pc.toNat = 255 := by omega
    simp [takeOperands, decodeFault, this]
  · by_cases hq : s.pc.toNat + 2 > 255 <;> simp only [hp, hq, if_true, if_false, takeOperands]

/-- Fetch of an instruction with two operands: both operand bytes are needed, and the first missing one is at 256 (R75,
R143). -/
theorem fetchDecode_count_two {d : OpEntry} (h : decodeOpcode (byteAtPc s 0) = some d) (hn : d.operandCount = 2) :
    fetchDecode s =
      if s.pc.toNat + 2 > 255 then .error (.addressOutOfRange 256)
      else .ok (buildInstr d.mnemonic (byteAtPc s 1) (byteAtPc s 2)) := by
  have hlt := s.pc.isLt
  rw [fetchDecode_known s h, hn, cellsFrom_operands]
  by_cases hp : s.pc.toNat + 1 > 255
  · have : s.pc.toNat = 255 := by omega
    simp [takeOperands, decodeFault, this]
  · by_cases hq : s.pc.toNat + 2 > 255
    · have : s.pc.toNat = 254 := by omega
      simp [takeOperands, decodeFault, this]
    · simp only [hp, hq, if_false, takeOperands]

end Sys2Proof.Machine
end

