-- ==== Sys2Proof/Laws/Events.lean ====
section
/-! SUPPORT. Everything each host event can do: an accepted one has its effect, any other leaves the state. -/

namespace Sys2Proof.Machine

variable (s : State)

@[simp] theorem applyEvent_reset (p : PowerOn) : applyEvent (.reset p) s = State.resetFrom p := rfl

@[simp] theorem resetFrom_mem (p : PowerOn) : (State.resetFrom p).mem = p.memInit := rfl
@[simp] theorem resetFrom_flv (p : PowerOn) : (State.resetFrom p).flv = false := rfl
@[simp] theorem resetFrom_fault (p : PowerOn) : (State.resetFrom p).fault = none := rfl

theorem applyEvent_load_cases (image : List Byte) :
    (Idle s ∧ image.length ≤ Config.memSize ∧
        applyEvent (.load image) s = setMem s (Memory.place s.mem Config.pcReset.toNat image)) ∨
      applyEvent (.load image) s = s := by
  by_cases h : Idle s ∧ image.length ≤ Config.memSize
  · exact .inl ⟨h.1, h.2, if_pos h⟩
  · exact .inr (if_neg h)

theorem applyEvent_start_cases :
    (Idle s ∧ applyEvent .start s = { s with run := true }) ∨ applyEvent .start s = s := by
  by_cases h : Idle s
  · exact .inl ⟨h, if_pos h⟩
  · exact .inr (if_neg h)

end Sys2Proof.Machine
end

