-- ==== Sys2Proof/Laws/State.lean ====
section
/-! SUPPORT. What each update of the state does to each field: one lemma per field per update, so that no proof unfolds a
record update. Then what reading a register gives after an update. -/

namespace Sys2Proof.Machine

variable (s : State)

/-! ### `writeReg` -/

@[simp] theorem writeReg_mem (i : Fin 8) (v : Byte) : (writeReg s i v).mem = s.mem := rfl
@[simp] theorem writeReg_x (i : Fin 8) (v : Byte) : (writeReg s i v).x = s.x.set i.val v := rfl
@[simp] theorem writeReg_pc (i : Fin 8) (v : Byte) : (writeReg s i v).pc = s.pc := rfl
@[simp] theorem writeReg_fl (i : Fin 8) (v : Byte) : (writeReg s i v).fl = s.fl := rfl
@[simp] theorem writeReg_flv (i : Fin 8) (v : Byte) : (writeReg s i v).flv = s.flv := rfl
@[simp] theorem writeReg_ir (i : Fin 8) (v : Byte) : (writeReg s i v).ir = s.ir := rfl
@[simp] theorem writeReg_run (i : Fin 8) (v : Byte) : (writeReg s i v).run = s.run := rfl
@[simp] theorem writeReg_fault (i : Fin 8) (v : Byte) : (writeReg s i v).fault = s.fault := rfl
@[simp] theorem writeReg_out (i : Fin 8) (v : Byte) : (writeReg s i v).out = s.out := rfl

/-! ### `writeSp` -/

@[simp] theorem writeSp_mem (v : Byte) : (writeSp s v).mem = s.mem := rfl
@[simp] theorem writeSp_x (v : Byte) : (writeSp s v).x = s.x.set 7 v := rfl
@[simp] theorem writeSp_pc (v : Byte) : (writeSp s v).pc = s.pc := rfl
@[simp] theorem writeSp_fl (v : Byte) : (writeSp s v).fl = s.fl := rfl
@[simp] theorem writeSp_flv (v : Byte) : (writeSp s v).flv = s.flv := rfl
@[simp] theorem writeSp_ir (v : Byte) : (writeSp s v).ir = s.ir := rfl
@[simp] theorem writeSp_run (v : Byte) : (writeSp s v).run = s.run := rfl
@[simp] theorem writeSp_fault (v : Byte) : (writeSp s v).fault = s.fault := rfl
@[simp] theorem writeSp_out (v : Byte) : (writeSp s v).out = s.out := rfl

/-! ### `setPc` -/

@[simp] theorem setPc_mem (v : Byte) : (setPc s v).mem = s.mem := rfl
@[simp] theorem setPc_x (v : Byte) : (setPc s v).x = s.x := rfl
@[simp] theorem setPc_pc (v : Byte) : (setPc s v).pc = v := rfl
@[simp] theorem setPc_fl (v : Byte) : (setPc s v).fl = s.fl := rfl
@[simp] theorem setPc_flv (v : Byte) : (setPc s v).flv = s.flv := rfl
@[simp] theorem setPc_ir (v : Byte) : (setPc s v).ir = s.ir := rfl
@[simp] theorem setPc_run (v : Byte) : (setPc s v).run = s.run := rfl
@[simp] theorem setPc_fault (v : Byte) : (setPc s v).fault = s.fault := rfl
@[simp] theorem setPc_out (v : Byte) : (setPc s v).out = s.out := rfl

/-! ### `setFlags` -/

@[simp] theorem setFlags_mem (v : Byte) : (setFlags s v).mem = s.mem := rfl
@[simp] theorem setFlags_x (v : Byte) : (setFlags s v).x = s.x := rfl
@[simp] theorem setFlags_pc (v : Byte) : (setFlags s v).pc = s.pc := rfl
@[simp] theorem setFlags_fl (v : Byte) : (setFlags s v).fl = v := rfl
@[simp] theorem setFlags_flv (v : Byte) : (setFlags s v).flv = true := rfl
@[simp] theorem setFlags_ir (v : Byte) : (setFlags s v).ir = s.ir := rfl
@[simp] theorem setFlags_run (v : Byte) : (setFlags s v).run = s.run := rfl
@[simp] theorem setFlags_fault (v : Byte) : (setFlags s v).fault = s.fault := rfl
@[simp] theorem setFlags_out (v : Byte) : (setFlags s v).out = s.out := rfl

/-! ### `latchIr` -/

@[simp] theorem latchIr_mem (v : Byte) : (latchIr s v).mem = s.mem := rfl
@[simp] theorem latchIr_x (v : Byte) : (latchIr s v).x = s.x := rfl
@[simp] theorem latchIr_pc (v : Byte) : (latchIr s v).pc = s.pc := rfl
@[simp] theorem latchIr_fl (v : Byte) : (latchIr s v).fl = s.fl := rfl
@[simp] theorem latchIr_flv (v : Byte) : (latchIr s v).flv = s.flv := rfl
@[simp] theorem latchIr_ir (v : Byte) : (latchIr s v).ir = v := rfl
@[simp] theorem latchIr_run (v : Byte) : (latchIr s v).run = s.run := rfl
@[simp] theorem latchIr_fault (v : Byte) : (latchIr s v).fault = s.fault := rfl
@[simp] theorem latchIr_out (v : Byte) : (latchIr s v).out = s.out := rfl

/-! ### `clearRun` -/

@[simp] theorem clearRun_mem : (clearRun s).mem = s.mem := rfl
@[simp] theorem clearRun_x : (clearRun s).x = s.x := rfl
@[simp] theorem clearRun_pc : (clearRun s).pc = s.pc := rfl
@[simp] theorem clearRun_fl : (clearRun s).fl = s.fl := rfl
@[simp] theorem clearRun_flv : (clearRun s).flv = s.flv := rfl
@[simp] theorem clearRun_ir : (clearRun s).ir = s.ir := rfl
@[simp] theorem clearRun_run : (clearRun s).run = false := rfl
@[simp] theorem clearRun_fault : (clearRun s).fault = s.fault := rfl
@[simp] theorem clearRun_out : (clearRun s).out = s.out := rfl

/-! ### `emit` -/

@[simp] theorem emit_mem (v : Byte) : (emit s v).mem = s.mem := rfl
@[simp] theorem emit_x (v : Byte) : (emit s v).x = s.x := rfl
@[simp] theorem emit_pc (v : Byte) : (emit s v).pc = s.pc := rfl
@[simp] theorem emit_fl (v : Byte) : (emit s v).fl = s.fl := rfl
@[simp] theorem emit_flv (v : Byte) : (emit s v).flv = s.flv := rfl
@[simp] theorem emit_ir (v : Byte) : (emit s v).ir = s.ir := rfl
@[simp] theorem emit_run (v : Byte) : (emit s v).run = s.run := rfl
@[simp] theorem emit_fault (v : Byte) : (emit s v).fault = s.fault := rfl
@[simp] theorem emit_out (v : Byte) : (emit s v).out = s.out ++ [v] := rfl

/-! ### `setMem` -/

@[simp] theorem setMem_mem (m : Memory) : (setMem s m).mem = m := rfl
@[simp] theorem setMem_x (m : Memory) : (setMem s m).x = s.x := rfl
@[simp] theorem setMem_pc (m : Memory) : (setMem s m).pc = s.pc := rfl
@[simp] theorem setMem_fl (m : Memory) : (setMem s m).fl = s.fl := rfl
@[simp] theorem setMem_flv (m : Memory) : (setMem s m).flv = s.flv := rfl
@[simp] theorem setMem_ir (m : Memory) : (setMem s m).ir = s.ir := rfl
@[simp] theorem setMem_run (m : Memory) : (setMem s m).run = s.run := rfl
@[simp] theorem setMem_fault (m : Memory) : (setMem s m).fault = s.fault := rfl
@[simp] theorem setMem_out (m : Memory) : (setMem s m).out = s.out := rfl

/-! ### `recordFault` -/

@[simp] theorem recordFault_mem (k : FaultKind) : (recordFault s k).mem = s.mem := rfl
@[simp] theorem recordFault_x (k : FaultKind) : (recordFault s k).x = s.x := rfl
@[simp] theorem recordFault_pc (k : FaultKind) : (recordFault s k).pc = s.pc := rfl
@[simp] theorem recordFault_fl (k : FaultKind) : (recordFault s k).fl = s.fl := rfl
@[simp] theorem recordFault_flv (k : FaultKind) : (recordFault s k).flv = s.flv := rfl
@[simp] theorem recordFault_ir (k : FaultKind) : (recordFault s k).ir = s.ir := rfl
@[simp] theorem recordFault_run (k : FaultKind) : (recordFault s k).run = s.run := rfl
@[simp] theorem recordFault_fault (k : FaultKind) : (recordFault s k).fault = some k := rfl
@[simp] theorem recordFault_out (k : FaultKind) : (recordFault s k).out = s.out := rfl

/-! ### Reading a register after an update -/

@[simp] theorem readReg_setPc (v : Byte) (r : Fin 8) : readReg (setPc s v) r = readReg s r := rfl
@[simp] theorem readSp_setPc (v : Byte) : readSp (setPc s v) = readSp s := rfl
@[simp] theorem readReg_setFlags (v : Byte) (r : Fin 8) : readReg (setFlags s v) r = readReg s r := rfl
@[simp] theorem readSp_setFlags (v : Byte) : readSp (setFlags s v) = readSp s := rfl
@[simp] theorem readReg_latchIr (v : Byte) (r : Fin 8) : readReg (latchIr s v) r = readReg s r := rfl
@[simp] theorem readSp_latchIr (v : Byte) : readSp (latchIr s v) = readSp s := rfl
@[simp] theorem readReg_clearRun (r : Fin 8) : readReg (clearRun s) r = readReg s r := rfl
@[simp] theorem readSp_clearRun : readSp (clearRun s) = readSp s := rfl
@[simp] theorem readReg_emit (v : Byte) (r : Fin 8) : readReg (emit s v) r = readReg s r := rfl
@[simp] theorem readSp_emit (v : Byte) : readSp (emit s v) = readSp s := rfl
@[simp] theorem readReg_setMem (m : Memory) (r : Fin 8) : readReg (setMem s m) r = readReg s r := rfl
@[simp] theorem readSp_setMem (m : Memory) : readSp (setMem s m) = readSp s := rfl
@[simp] theorem readReg_recordFault (k : FaultKind) (r : Fin 8) : readReg (recordFault s k) r = readReg s r := rfl
@[simp] theorem readSp_recordFault (k : FaultKind) : readSp (recordFault s k) = readSp s := rfl

@[simp] theorem readReg_writeReg_same (i : Fin 8) (v : Byte) : readReg (writeReg s i v) i = v := by
  simp [readReg]

theorem readReg_writeReg_other (i r : Fin 8) (v : Byte) (h : r ≠ i) : readReg (writeReg s i v) r = readReg s r := by
  have : i.val ≠ r.val := fun e => h (Fin.ext e.symm)
  simp [readReg, Vector.getElem_set_ne, this]

theorem readReg_writeReg (i r : Fin 8) (v : Byte) :
    readReg (writeReg s i v) r = if r = i then v else readReg s r := by
  split
  · next h => subst h; simp
  · next h => exact readReg_writeReg_other s i r v h

/-- `x[7]` is stored once: writing the stack pointer is writing register 7 (R13). -/
theorem writeSp_eq_writeReg (v : Byte) : writeSp s v = writeReg s 7 v := rfl

@[simp] theorem readSp_writeSp (v : Byte) : readSp (writeSp s v) = v := readReg_writeReg_same s 7 v

end Sys2Proof.Machine
end

