-- ==== Sys2Proof/Laws/Ops.lean ====
section
/-! SUPPORT. One lemma per outcome of each shared operation, and one inversion lemma for `checked` and for the two
operations that several meanings share. -/

namespace Sys2Proof.Machine

variable (s t : State)

/-! ### Raising a fault, and checks -/

@[simp] theorem raise_eq (k : FaultKind) : raise k s = .next (recordFault s k) := rfl

@[simp] theorem checked_ok {α : Type} (v : α) (k : α → Result) : checked (.ok v) s k = k v := rfl

@[simp] theorem checked_error {α : Type} (f : FaultKind) (k : α → Result) :
    checked (.error f) s k = .next (recordFault s f) := rfl

/-- Everything `checked` can do when it answers a next state. -/
theorem checked_next {α : Type} {c : Except FaultKind α} {k : α → Result} (h : checked c s k = .next t) :
    (∃ v, c = .ok v ∧ k v = .next t) ∨ (∃ f, c = .error f ∧ t = recordFault s f) := by
  cases c with
  | ok v => exact .inl ⟨v, rfl, h⟩
  | error f =>
    simp only [checked_error, Host.Outcome.next.injEq] at h
    exact .inr ⟨f, rfl, h.symm⟩

/-- `checked` answers a next state if its continuation does. -/
theorem checked_total {α : Type} (c : Except FaultKind α) (k : α → Result) (h : ∀ v, c = .ok v → ∃ t, k v = .next t) :
    ∃ t, checked c s k = .next t := by
  cases c with
  | ok v => exact h v rfl
  | error f => exact ⟨_, rfl⟩

/-! ### Operands (R76) -/

theorem regidx_ok (b : Byte) (h : b.toNat < 8) : regidx b = .ok ⟨b.toNat, h⟩ := by simp [regidx, h]

theorem regidx_error (b : Byte) (h : ¬ b.toNat < 8) : regidx b = .error (.registerIndexOutOfRange b) := by
  simp [regidx, h]

/-- What a passed register check says. -/
theorem regidx_eq_ok {b : Byte} {r : Fin 8} (h : regidx b = .ok r) : r.val = b.toNat := by
  unfold regidx at h
  split at h
  · cases h; rfl
  · cases h

/-- What a failed register check says. -/
theorem regidx_eq_error {b : Byte} {f : FaultKind} (h : regidx b = .error f) :
    8 ≤ b.toNat ∧ f = .registerIndexOutOfRange b := by
  unfold regidx at h
  split at h
  · cases h
  · next hb => cases h; exact ⟨by omega, rfl⟩

/-- The register an operand byte names is the stack pointer exactly when the byte is 7 (R13). -/
theorem index_eq_spIndex {a : Byte} (ha : a.toNat < 8) : (⟨a.toNat, ha⟩ : Fin 8) = Config.spIndex ↔ a = 7 :=
  by
  constructor
  · intro h
    have hv : a.toNat = (7 : Fin 8).val := Fin.val_eq_of_eq h
    exact BitVec.eq_of_toNat_eq hv
  · intro h
    subst h
    rfl

/-- Reading an operand's register after the stack pointer was written (R100, R110). -/
theorem readReg_index_writeSp (v a : Byte) (ha : a.toNat < 8) :
    readReg (writeSp s v) ⟨a.toNat, ha⟩ = if a = 7 then v else readReg s ⟨a.toNat, ha⟩ := by
  rw [writeSp, readReg_writeReg]
  simp only [index_eq_spIndex ha]

/-- The stack pointer POP increments (R101). -/
theorem popPointer_index (v a : Byte) (ha : a.toNat < 8) :
    popPointer s ⟨a.toNat, ha⟩ v = if a = 7 then v else readSp s := by
  simp only [popPointer, index_eq_spIndex ha]

/-! ### The program counter (R77) and the stack pointer (R102) -/

theorem nextPc_ok (k : Nat) (h : s.pc.toNat + k ≤ 255) : nextPc s k = .ok (BitVec.ofNat 8 (s.pc.toNat + k)) := by
  simp [nextPc, h]

theorem nextPc_error (k : Nat) (h : 255 < s.pc.toNat + k) :
    nextPc s k = .error (.addressOutOfRange (s.pc.toNat + k : Nat)) := by
  simp only [nextPc, gt_iff_lt, h, if_true]

/-- The checked `pc + k` is the sum of the two bytes. -/
theorem ofNat_pc_add (pc : Byte) (k : Nat) : BitVec.ofNat 8 (pc.toNat + k) = pc + BitVec.ofNat 8 k := by
  simp [BitVec.ofNat_add]

/-- Everything a checked `pc + k` can be. -/
theorem nextPc_eq_ok {k : Nat} {v : Byte} (h : nextPc s k = .ok v) :
    s.pc.toNat + k ≤ 255 ∧ v = s.pc + BitVec.ofNat 8 k := by
  unfold nextPc at h
  split at h
  · cases h
  · cases h; exact ⟨by omega, ofNat_pc_add _ _⟩

theorem nextPc_eq_error {k : Nat} {f : FaultKind} (h : nextPc s k = .error f) :
    255 < s.pc.toNat + k ∧ f = .addressOutOfRange (s.pc.toNat + k : Nat) := by
  unfold nextPc at h
  split at h
  · cases h; exact ⟨by omega, rfl⟩
  · cases h

theorem decSp_ok (h : (readSp s).toNat ≠ 0) : decSp s = .ok (readSp s - 1) := by simp [decSp, h]

theorem decSp_error (h : (readSp s).toNat = 0) : decSp s = .error (.addressOutOfRange (-1)) := by simp [decSp, h]

theorem decSp_eq_ok {v : Byte} (h : decSp s = .ok v) : (readSp s).toNat ≠ 0 ∧ v = readSp s - 1 := by
  unfold decSp at h
  split at h
  · cases h
  · next hs => cases h; exact ⟨hs, rfl⟩

theorem decSp_eq_error {f : FaultKind} (h : decSp s = .error f) :
    (readSp s).toNat = 0 ∧ f = .addressOutOfRange (-1) := by
  unfold decSp at h
  split at h
  · next hs => cases h; exact ⟨hs, rfl⟩
  · cases h

theorem incSp_ok (v : Byte) (h : v.toNat ≠ 255) : incSp v = .ok (v + 1) := by
  have : ¬ v.toNat + 1 > 255 := by have := v.isLt; omega
  simp only [incSp, this, if_false]

theorem incSp_error (v : Byte) (h : v.toNat = 255) : incSp v = .error (.addressOutOfRange 256) := by
  simp [incSp, h]

theorem incSp_eq_ok {v w : Byte} (h : incSp v = .ok w) : v.toNat ≠ 255 ∧ w = v + 1 := by
  unfold incSp at h
  split at h
  · cases h
  · cases h; exact ⟨by omega, rfl⟩

theorem incSp_eq_error {v : Byte} {f : FaultKind} (h : incSp v = .error f) :
    v.toNat = 255 ∧ f = .addressOutOfRange 256 := by
  by_cases hv : v.toNat = 255
  · rw [incSp_error v hv] at h; cases h; exact ⟨hv, rfl⟩
  · rw [incSp_ok v hv] at h; cases h

/-! ### Memory accesses (R31) -/

/-- An address that is a byte is in range: a read at it never faults. -/
@[simp] theorem memRead_byte (a : Byte) : memRead s (a.toNat : Int) = .ok (Memory.read s.mem a.toNat) := by
  have := a.isLt
  simp only [memRead]
  rw [if_neg (by omega), Int.toNat_natCast]

/-- An address that is a byte is in range: a write at it never faults. -/
@[simp] theorem memWrite_byte (a v : Byte) :
    memWrite s (a.toNat : Int) v = .ok (setMem s (Memory.write s.mem a.toNat v)) := by
  have := a.isLt
  simp only [memWrite]
  rw [if_neg (by omega), Int.toNat_natCast]

/-- A write at a byte address keeps the canonical form. -/
theorem Memory.wf_write_byte (m : Memory) (hm : Memory.wf m) (a v : Byte) : Memory.wf (Memory.write m a.toNat v) :=
  Memory.wf_write m hm a.toNat v a.isLt

/-! ### Flags (R18, R131) -/

theorem readEqual_ok (h : s.flv = true) : readEqual s = .ok (s.fl.getLsbD 0) := by simp [readEqual, h, Config.flE]

theorem readEqual_error (h : s.flv = false) : readEqual s = .error .undefinedFlagsRead := by simp [readEqual, h]

theorem readEqual_eq_ok {e : Bool} (h : readEqual s = .ok e) : s.flv = true ∧ e = s.fl.getLsbD 0 := by
  cases hf : s.flv with
  | true => rw [readEqual_ok s hf] at h; cases h; exact ⟨rfl, rfl⟩
  | false => rw [readEqual_error s hf] at h; cases h

theorem readEqual_eq_error {f : FaultKind} (h : readEqual s = .error f) :
    s.flv = false ∧ f = .undefinedFlagsRead := by
  cases hf : s.flv with
  | true => rw [readEqual_ok s hf] at h; cases h
  | false => rw [readEqual_error s hf] at h; cases h; exact ⟨rfl, rfl⟩

/-- The three outcomes of a comparison (R131). -/
theorem compareFlags_cases (u v : Byte) :
    (u.toNat = v.toNat ∧ compareFlags u v = 1) ∨ (u.toNat > v.toNat ∧ compareFlags u v = 2) ∨
      (u.toNat < v.toNat ∧ compareFlags u v = 4) := by
  unfold compareFlags
  split
  · next h => exact .inl ⟨h, rfl⟩
  · split
    · next h => exact .inr (.inl ⟨h, rfl⟩)
    · exact .inr (.inr ⟨by omega, rfl⟩)

/-! ### The two operations that several meanings share -/

/-- Everything a conditional jump can do (R112, R113). -/
theorem jumpWhenEqualIs_next {taken : Bool} {a : Byte} (h : jumpWhenEqualIs taken a s = .next t) :
    (∃ ra, regidx a = .ok ra ∧ s.flv = true ∧ s.fl.getLsbD 0 = taken ∧ t = setPc s (readReg s ra)) ∨
      (s.flv = true ∧ s.fl.getLsbD 0 ≠ taken ∧ s.pc.toNat + 2 ≤ 255 ∧ t = setPc s (s.pc + 2)) ∨
      (∃ f, t = recordFault s f ∧
        (regidx a = .error f ∨ readEqual s = .error f ∨ (s.fl.getLsbD 0 ≠ taken ∧ nextPc s 2 = .error f))) := by
  rcases checked_next s t h with ⟨ra, hra, h⟩ | ⟨f, hf, ht⟩
  · rcases checked_next s t h with ⟨e, he, h⟩ | ⟨f, hf, ht⟩
    · obtain ⟨hv, rfl⟩ := readEqual_eq_ok s he
      split at h
      · next htaken => cases h; exact .inl ⟨ra, hra, hv, htaken, rfl⟩
      · next hnot =>
        rcases checked_next s t h with ⟨npc, hn, h⟩ | ⟨f, hf, ht⟩
        · obtain ⟨hle, rfl⟩ := nextPc_eq_ok s hn
          cases h
          exact .inr (.inl ⟨hv, hnot, hle, rfl⟩)
        · exact .inr (.inr ⟨f, ht, .inr (.inr ⟨hnot, hf⟩)⟩)
    · exact .inr (.inr ⟨f, ht, .inr (.inl hf)⟩)
  · exact .inr (.inr ⟨f, ht, .inl hf⟩)

/-- Everything an ALU operation can do (R125). -/
theorem aluOperation_next {write : State → Fin 8 → Byte → Byte → State} {a b : Byte}
    (h : aluOperation write a b s = .next t) :
    (∃ ra rb, regidx a = .ok ra ∧ regidx b = .ok rb ∧ s.pc.toNat + 3 ≤ 255 ∧
        t = setPc (write s ra (readReg s ra) (readReg s rb)) (s.pc + 3)) ∨
      (∃ f, t = recordFault s f ∧ (regidx a = .error f ∨ regidx b = .error f ∨ nextPc s 3 = .error f)) := by
  rcases checked_next s t h with ⟨ra, hra, h⟩ | ⟨f, hf, ht⟩
  · rcases checked_next s t h with ⟨rb, hrb, h⟩ | ⟨f, hf, ht⟩
    · rcases checked_next s t h with ⟨npc, hn, h⟩ | ⟨f, hf, ht⟩
      · obtain ⟨hle, rfl⟩ := nextPc_eq_ok s hn
        cases h
        exact .inl ⟨ra, rb, hra, hrb, hle, rfl⟩
      · exact .inr ⟨f, ht, .inr (.inr hf)⟩
    · exact .inr ⟨f, ht, .inr (.inl hf)⟩
  · exact .inr ⟨f, ht, .inl hf⟩

end Sys2Proof.Machine
end

