-- ==== Sys2Proof/Laws/Exec.lean ====
section
/-! SUPPORT. Inversion: everything each meaning, and a step, can do when it answers a next state. The last case of each is
the fault it records, with the check that failed. -/

namespace Sys2Proof.Machine

variable (s t : State)

theorem execHlt_next (h : execHlt s = .next t) : t = clearRun s := by cases h; rfl

theorem execLdi_next {a b : Byte} (h : execLdi a b s = .next t) :
    (∃ ra, regidx a = .ok ra ∧ s.pc.toNat + 3 ≤ 255 ∧ t = setPc (writeReg s ra b) (s.pc + 3)) ∨
      (∃ f, t = recordFault s f ∧ (regidx a = .error f ∨ nextPc s 3 = .error f)) := by
  rcases checked_next s t h with ⟨ra, hra, h⟩ | ⟨f, hf, ht⟩
  · rcases checked_next s t h with ⟨npc, hn, h⟩ | ⟨f, hf, ht⟩
    · obtain ⟨hle, rfl⟩ := nextPc_eq_ok s hn
      cases h
      exact .inl ⟨ra, hra, hle, rfl⟩
    · exact .inr ⟨f, ht, .inr hf⟩
  · exact .inr ⟨f, ht, .inl hf⟩

theorem execPrn_next {a : Byte} (h : execPrn a s = .next t) :
    (∃ ra, regidx a = .ok ra ∧ s.pc.toNat + 2 ≤ 255 ∧ t = setPc (emit s (readReg s ra)) (s.pc + 2)) ∨
      (∃ f, t = recordFault s f ∧ (regidx a = .error f ∨ nextPc s 2 = .error f)) := by
  rcases checked_next s t h with ⟨ra, hra, h⟩ | ⟨f, hf, ht⟩
  · rcases checked_next s t h with ⟨npc, hn, h⟩ | ⟨f, hf, ht⟩
    · obtain ⟨hle, rfl⟩ := nextPc_eq_ok s hn
      cases h
      exact .inl ⟨ra, hra, hle, rfl⟩
    · exact .inr ⟨f, ht, .inr hf⟩
  · exact .inr ⟨f, ht, .inl hf⟩

theorem execPush_next {a : Byte} (h : execPush a s = .next t) :
    (∃ ra sp, regidx a = .ok ra ∧ decSp s = .ok sp ∧ s.pc.toNat + 2 ≤ 255 ∧
        t = setPc (setMem (writeSp s sp) (Memory.write s.mem sp.toNat (readReg (writeSp s sp) ra))) (s.pc + 2)) ∨
      (∃ f, t = recordFault s f ∧ (regidx a = .error f ∨ decSp s = .error f ∨ nextPc s 2 = .error f)) := by
  rcases checked_next s t h with ⟨ra, hra, h⟩ | ⟨f, hf, ht⟩
  · rcases checked_next s t h with ⟨sp, hsp, h⟩ | ⟨f, hf, ht⟩
    · rcases checked_next s t h with ⟨npc, hn, h⟩ | ⟨f, hf, ht⟩
      · obtain ⟨hle, rfl⟩ := nextPc_eq_ok s hn
        simp only [memWrite_byte, checked_ok, Host.Outcome.next.injEq, writeSp_mem] at h
        exact .inl ⟨ra, sp, hra, hsp, hle, h.symm⟩
      · exact .inr ⟨f, ht, .inr (.inr hf)⟩
    · exact .inr ⟨f, ht, .inr (.inl hf)⟩
  · exact .inr ⟨f, ht, .inl hf⟩

theorem execPop_next {a : Byte} (h : execPop a s = .next t) :
    (∃ ra v sp, regidx a = .ok ra ∧ v = Memory.read s.mem (readSp s).toNat ∧ incSp (popPointer s ra v) = .ok sp ∧
        s.pc.toNat + 2 ≤ 255 ∧ t = setPc (writeSp (writeReg s ra v) sp) (s.pc + 2)) ∨
      (∃ f, t = recordFault s f ∧ (regidx a = .error f ∨
        (∃ ra, incSp (popPointer s ra (Memory.read s.mem (readSp s).toNat)) = .error f) ∨ nextPc s 2 = .error f)) := by
  rcases checked_next s t h with ⟨ra, hra, h⟩ | ⟨f, hf, ht⟩
  · rw [memRead_byte, checked_ok] at h
    rcases checked_next s t h with ⟨sp, hsp, h⟩ | ⟨f, hf, ht⟩
    · rcases checked_next s t h with ⟨npc, hn, h⟩ | ⟨f, hf, ht⟩
      · obtain ⟨hle, rfl⟩ := nextPc_eq_ok s hn
        cases h
        exact .inl ⟨ra, _, sp, hra, rfl, hsp, hle, rfl⟩
      · exact .inr ⟨f, ht, .inr (.inr hf)⟩
    · exact .inr ⟨f, ht, .inr (.inl ⟨ra, hf⟩)⟩
  · exact .inr ⟨f, ht, .inl hf⟩

theorem execCall_next {a : Byte} (h : execCall a s = .next t) :
    (∃ ra sp, regidx a = .ok ra ∧ decSp s = .ok sp ∧ s.pc.toNat + 2 ≤ 255 ∧
        t = setPc (setMem (writeSp s sp) (Memory.write s.mem sp.toNat (s.pc + 2))) (readReg (writeSp s sp) ra)) ∨
      (∃ f, t = recordFault s f ∧ (regidx a = .error f ∨ decSp s = .error f ∨ nextPc s 2 = .error f)) := by
  rcases checked_next s t h with ⟨ra, hra, h⟩ | ⟨f, hf, ht⟩
  · rcases checked_next s t h with ⟨sp, hsp, h⟩ | ⟨f, hf, ht⟩
    · rcases checked_next s t h with ⟨npc, hn, h⟩ | ⟨f, hf, ht⟩
      · obtain ⟨hle, rfl⟩ := nextPc_eq_ok s hn
        simp only [memWrite_byte, checked_ok, Host.Outcome.next.injEq, writeSp_mem, readReg_setMem] at h
        exact .inl ⟨ra, sp, hra, hsp, hle, h.symm⟩
      · exact .inr ⟨f, ht, .inr (.inr hf)⟩
    · exact .inr ⟨f, ht, .inr (.inl hf)⟩
  · exact .inr ⟨f, ht, .inl hf⟩

theorem execRet_next (h : execRet s = .next t) : t = setPc s (Memory.read s.mem (readSp s).toNat) := by
  rw [execRet, memRead_byte, checked_ok] at h
  cases h; rfl

theorem execJmp_next {a : Byte} (h : execJmp a s = .next t) :
    (∃ ra, regidx a = .ok ra ∧ t = setPc s (readReg s ra)) ∨ (∃ f, t = recordFault s f ∧ regidx a = .error f) := by
  rcases checked_next s t h with ⟨ra, hra, h⟩ | ⟨f, hf, ht⟩
  · cases h; exact .inl ⟨ra, hra, rfl⟩
  · exact .inr ⟨f, ht, hf⟩

theorem execJeq_next {a : Byte} (h : execJeq a s = .next t) :
    (∃ ra, regidx a = .ok ra ∧ s.flv = true ∧ s.fl.getLsbD 0 = true ∧ t = setPc s (readReg s ra)) ∨
      (s.flv = true ∧ s.fl.getLsbD 0 ≠ true ∧ s.pc.toNat + 2 ≤ 255 ∧ t = setPc s (s.pc + 2)) ∨
      (∃ f, t = recordFault s f ∧
        (regidx a = .error f ∨ readEqual s = .error f ∨ (s.fl.getLsbD 0 ≠ true ∧ nextPc s 2 = .error f))) :=
  jumpWhenEqualIs_next s t h

theorem execJne_next {a : Byte} (h : execJne a s = .next t) :
    (∃ ra, regidx a = .ok ra ∧ s.flv = true ∧ s.fl.getLsbD 0 = false ∧ t = setPc s (readReg s ra)) ∨
      (s.flv = true ∧ s.fl.getLsbD 0 ≠ false ∧ s.pc.toNat + 2 ≤ 255 ∧ t = setPc s (s.pc + 2)) ∨
      (∃ f, t = recordFault s f ∧
        (regidx a = .error f ∨ readEqual s = .error f ∨ (s.fl.getLsbD 0 ≠ false ∧ nextPc s 2 = .error f))) :=
  jumpWhenEqualIs_next s t h

theorem execAdd_next {a b : Byte} (h : execAdd a b s = .next t) :
    (∃ ra rb, regidx a = .ok ra ∧ regidx b = .ok rb ∧ s.pc.toNat + 3 ≤ 255 ∧
        t = setPc (writeReg s ra (aluAdd (readReg s ra) (readReg s rb))) (s.pc + 3)) ∨
      (∃ f, t = recordFault s f ∧ (regidx a = .error f ∨ regidx b = .error f ∨ nextPc s 3 = .error f)) :=
  aluOperation_next s t h

theorem execMul_next {a b : Byte} (h : execMul a b s = .next t) :
    (∃ ra rb, regidx a = .ok ra ∧ regidx b = .ok rb ∧ s.pc.toNat + 3 ≤ 255 ∧
        t = setPc (writeReg s ra (aluMul (readReg s ra) (readReg s rb))) (s.pc + 3)) ∨
      (∃ f, t = recordFault s f ∧ (regidx a = .error f ∨ regidx b = .error f ∨ nextPc s 3 = .error f)) :=
  aluOperation_next s t h

theorem execCmp_next {a b : Byte} (h : execCmp a b s = .next t) :
    (∃ ra rb, regidx a = .ok ra ∧ regidx b = .ok rb ∧ s.pc.toNat + 3 ≤ 255 ∧
        t = setPc (setFlags s (compareFlags (readReg s ra) (readReg s rb))) (s.pc + 3)) ∨
      (∃ f, t = recordFault s f ∧ (regidx a = .error f ∨ regidx b = .error f ∨ nextPc s 3 = .error f)) :=
  aluOperation_next s t h

/-- Everything a step can do when it answers a next state (R70, R82). -/
theorem step_next (h : step s = .next t) :
    s.run = true ∧ s.fault = none ∧
      ((∃ i, fetchDecode s = .ok i ∧ exec i (latchIr s (byteAtPc s 0)) = .next t) ∨
       (∃ k, fetchDecode s = .error k ∧ t = recordFault (latchIr s (byteAtPc s 0)) k)) := by
  unfold step at h
  cases hf : s.fault with
  | some k => rw [hf] at h; cases h
  | none =>
    cases hr : s.run with
    | false => simp [hf, hr] at h
    | true =>
      refine ⟨rfl, rfl, ?_⟩
      cases hd : fetchDecode s with
      | ok i => simp only [hf, hr, hd, if_true] at h; exact .inl ⟨i, rfl, h⟩
      | error k => simp only [hf, hr, hd, if_true, raise_eq] at h; cases h; exact .inr ⟨k, rfl, rfl⟩

end Sys2Proof.Machine
end

