-- ==== Sys2Proof/Laws/PerInstr.lean ====
section
/-! SUPPORT. Family `EncodeShape`: what every instruction's encoding looks like (`30_encoding.md` R50, R51, R60): it starts
with the opcode byte of the instruction's row, that byte's entry names the row, and the length is 1 + operand count. -/

namespace Sys2Proof.Laws.EncodeShape

/-- The shape of one instruction's encoding. -/
def Statement (i : Instr) : Prop :=
  ∃ d, decodeOpcode (opcodeOf i.mnemonic) = some d ∧ d.mnemonic = i.mnemonic ∧
    (encode i).head? = some (opcodeOf i.mnemonic) ∧ (encode i).length = 1 + d.operandCount

theorem hlt : Statement .hlt := ⟨_, rfl, rfl, rfl, rfl⟩
theorem ldi (a b : Byte) : Statement (.ldi a b) := ⟨_, rfl, rfl, rfl, rfl⟩
theorem prn (a : Byte) : Statement (.prn a) := ⟨_, rfl, rfl, rfl, rfl⟩
theorem push (a : Byte) : Statement (.push a) := ⟨_, rfl, rfl, rfl, rfl⟩
theorem pop (a : Byte) : Statement (.pop a) := ⟨_, rfl, rfl, rfl, rfl⟩
theorem call (a : Byte) : Statement (.call a) := ⟨_, rfl, rfl, rfl, rfl⟩
theorem ret : Statement .ret := ⟨_, rfl, rfl, rfl, rfl⟩
theorem jeq (a : Byte) : Statement (.jeq a) := ⟨_, rfl, rfl, rfl, rfl⟩
theorem jne (a : Byte) : Statement (.jne a) := ⟨_, rfl, rfl, rfl, rfl⟩
theorem jmp (a : Byte) : Statement (.jmp a) := ⟨_, rfl, rfl, rfl, rfl⟩
theorem add (a b : Byte) : Statement (.add a b) := ⟨_, rfl, rfl, rfl, rfl⟩
theorem mul (a b : Byte) : Statement (.mul a b) := ⟨_, rfl, rfl, rfl, rfl⟩
theorem cmp (a b : Byte) : Statement (.cmp a b) := ⟨_, rfl, rfl, rfl, rfl⟩

end Sys2Proof.Laws.EncodeShape
end

