-- ==== Sys2Proof/Tests/Slice0.lean ====
section
/-! SUPPORT. The model's own tests. Expected results come from `95_test_vectors.md` (the vector is named at each test) and
from the encoding tables of `30_encoding.md`; a witness shows a state and operands that meet a statement's hypotheses. -/

namespace Sys2Proof.Tests

open Sys2Proof.Machine Sys2Proof.Safety

/-! ### Builders -/

/-- The next state an outcome holds, if it holds one. -/
def next? (o : Result) : Option State :=
  match o with
  | .next s => some s
  | .fault _ => none
  | .refused _ => none

/-- A running machine in the reset state, but for `pc`, with `bytes` at `pc`. -/
def at_ (pc : Byte) (bytes : List Byte) : State := placeAtPc (setPc State.reset pc) bytes

/-- `s` with register `i` holding `v`. -/
def reg (s : State) (i : Fin 8) (v : Byte) : State := writeReg s i v

/-- `s` with the byte `v` at address `a`. -/
def cell (s : State) (a : Nat) (v : Byte) : State := setMem s (Memory.write s.mem a v)

/-! ### Well-formedness: an ill-formed term for each register operand (R56) -/

theorem test_wf_accepts : (Instr.add 7 0).WellFormed ∧ (Instr.ldi 0 255).WellFormed ∧ Instr.hlt.WellFormed ∧
    Instr.ret.WellFormed := by decide

theorem test_wf_refuses_ldi_prn : ¬ (Instr.ldi 8 0).WellFormed ∧ ¬ (Instr.prn 8).WellFormed := by decide
theorem test_wf_refuses_push_pop : ¬ (Instr.push 9).WellFormed ∧ ¬ (Instr.pop 255).WellFormed := by decide
theorem test_wf_refuses_call_jumps : ¬ (Instr.call 8).WellFormed ∧ ¬ (Instr.jeq 8).WellFormed ∧
    ¬ (Instr.jne 8).WellFormed ∧ ¬ (Instr.jmp 8).WellFormed := by decide
theorem test_wf_refuses_alu_a : ¬ (Instr.add 8 0).WellFormed ∧ ¬ (Instr.mul 8 0).WellFormed ∧
    ¬ (Instr.cmp 8 0).WellFormed := by decide
theorem test_wf_refuses_alu_b : ¬ (Instr.add 0 8).WellFormed ∧ ¬ (Instr.mul 0 8).WellFormed ∧
    ¬ (Instr.cmp 0 8).WellFormed := by decide

/-! ### Decoding: every constructor by a word written out from R51 and R54 (V-DEC-8, S10) -/

theorem test_decode_hlt : decodeTableWord 8 0b00000001 = some .hlt := by decide
theorem test_decode_ldi : decodeTableWord 24 0b11111111_00000111_10000010 = some (.ldi 7 255) := by decide
theorem test_decode_prn : decodeTableWord 16 0b00000010_01000111 = some (.prn 2) := by decide
theorem test_decode_push : decodeTableWord 16 0b00000111_01000101 = some (.push 7) := by decide
theorem test_decode_pop : decodeTableWord 16 0b00000001_01000110 = some (.pop 1) := by decide
theorem test_decode_call : decodeTableWord 16 0b00000001_01010000 = some (.call 1) := by decide
theorem test_decode_ret : decodeTableWord 8 0b00010001 = some .ret := by decide
theorem test_decode_jeq : decodeTableWord 16 0b00000100_01010101 = some (.jeq 4) := by decide
theorem test_decode_jne : decodeTableWord 16 0b00000100_01010110 = some (.jne 4) := by decide
theorem test_decode_jmp : decodeTableWord 16 0b00000010_01010100 = some (.jmp 2) := by decide
theorem test_decode_add : decodeTableWord 24 0b00000001_00000000_10100000 = some (.add 0 1) := by decide
theorem test_decode_mul : decodeTableWord 24 0b00000001_00000000_10100010 = some (.mul 0 1) := by decide
theorem test_decode_cmp : decodeTableWord 24 0b00000011_00000001_10100111 = some (.cmp 1 3) := by decide

/-- The encoder's bytes are those of program P1's listing. -/
theorem test_encode_p1 : [Instr.ldi 0 8, .ldi 1 9, .mul 0 1, .prn 0, .hlt].flatMap encode =
    [0x82, 0x00, 0x08, 0x82, 0x01, 0x09, 0xA2, 0x00, 0x01, 0x47, 0x00, 0x01] := by decide

/-- V-DEC-1 to V-DEC-5: refused by name; C1: 0xFF is an unknown opcode although bit 5 is set. -/
theorem test_decode_refuses : decode [0x00] = .error (.unknownOpcode 0x00) ∧
    decode [0xFF] = .error (.unknownOpcode 0xFF) ∧ decode [0xA1, 0, 0] = .error (.unknownOpcode 0xA1) ∧
    decode [0x83, 0, 0] = .error (.unknownOpcode 0x83) ∧ decode [0x65, 0] = .error (.unknownOpcode 0x65) :=
  ⟨rfl, rfl, rfl, rfl, rfl⟩

/-- A needed byte that is not there is named (R75). -/
theorem test_decode_missing : decode [] = .error (.byteMissing 0) ∧ decode [0x47] = .error (.byteMissing 1) ∧
    decode [0x82] = .error (.byteMissing 1) ∧ decode [0x82, 0x00] = .error (.byteMissing 2) :=
  ⟨rfl, rfl, rfl, rfl⟩

/-- R61's forms, on the source's own example S1. -/
theorem test_asm : [Instr.ldi 0 8, .mul 0 1, .prn 0, .hlt].map asmText =
    ["LDI R0,8", "MUL R0,R1", "PRN R0", "HLT"] := by decide

/-! ### One step of each instruction -/

/-- V-HLT-2: HLT at 255 clears `run` and leaves `pc`. -/
theorem test_hlt : (next? (step (at_ 255 [0x01]))).map (fun t => (t.run, t.pc, t.fault)) = some (false, 255, none) := by
  decide

/-- V-LDI-4: the last place where LDI completes. -/
theorem test_ldi : (next? (step (at_ 252 [0x82, 0x00, 0x09]))).map (fun t => (t.x[0], t.pc)) = some (9, 255) := by decide

/-- V-LDI-5 and V-LDI-6: the advance and operand `b` beyond 255. -/
theorem test_ldi_faults :
    (next? (step (at_ 253 [0x82, 0x00, 0x09]))).map (fun t => (t.x[0], t.pc, t.fault)) =
        some (0, 253, some (.addressOutOfRange 256)) ∧
    (next? (step (at_ 254 [0x82, 0x00]))).map (fun t => (t.pc, t.fault)) =
        some (254, some (.addressOutOfRange 256)) := by decide

/-- V-PRN-1, V-PRN-3: the value is appended, unsigned; register 7 prints the stack pointer. -/
theorem test_prn :
    (next? (step (reg (at_ 9 [0x47, 0x00]) 0 72))).map (fun t => (t.out, t.pc)) = some ([72], 11) ∧
    (next? (step (at_ 0 [0x47, 0x07]))).map (fun t => t.out) = some [244] := by decide

/-- V-PRN-5: a faulting PRN emits nothing. -/
theorem test_prn_fault : (next? (step (reg (at_ 254 [0x47, 0x00]) 0 5))).map (fun t => (t.out, t.pc, t.fault)) =
    some ([], 254, some (.addressOutOfRange 256)) := by decide

/-- V-PUSH-2: `PUSH R7` stores the decremented pointer. -/
theorem test_push_sp : (next? (step (at_ 0 [0x45, 0x07]))).map (fun t => (t.x[7], Memory.read t.mem 0xF3, t.pc)) =
    some (0xF3, 0xF3, 2) := by decide

/-- V-PUSH-4: a PUSH that overwrites its own opcode byte completes; V-PUSH-3: no wrap at 0. -/
theorem test_push_code_and_zero :
    (next? (step (reg (reg (at_ 0xF2 [0x45, 0x00]) 0 0x99) 7 0xF3))).map
        (fun t => (t.x[7], Memory.read t.mem 0xF2, t.pc)) = some (0xF2, 0x99, 0xF4) ∧
    (next? (step (reg (at_ 0 [0x45, 0x00]) 7 0))).map (fun t => (t.x[7], t.pc, t.fault)) =
        some (0, 0, some (.addressOutOfRange (-1))) := by decide

/-- V-POP-1: the cell keeps its value. -/
theorem test_pop : (next? (step (cell (reg (at_ 10 [0x46, 0x01]) 7 0xF3) 0xF3 0xAA))).map
    (fun t => (t.x[1], t.x[7], t.pc, Memory.read t.mem 0xF3)) = some (0xAA, 0xF4, 12, 0xAA) := by decide

/-- V-POP-2, V-POP-3: `POP R7` increments the popped value, and faults on 255. -/
theorem test_pop_sp :
    (next? (step (cell (at_ 0 [0x46, 0x07]) 0xF4 0x20))).map (fun t => (t.x[7], t.pc)) = some (0x21, 2) ∧
    (next? (step (cell (at_ 0 [0x46, 0x07]) 0xF4 0xFF))).map (fun t => (t.x[7], t.fault)) =
        some (0xF4, some (.addressOutOfRange 256)) := by decide

/-- V-CALL-1. -/
theorem test_call : (next? (step (reg (at_ 6 [0x50, 0x01]) 1 12))).map
    (fun t => (t.x[7], Memory.read t.mem 0xF3, t.pc)) = some (0xF3, 8, 12) := by decide

/-- V-CALL-2, V-CALL-5: the target is read after the decrement; the return address must fit a cell. -/
theorem test_call_corners :
    (next? (step (at_ 0 [0x50, 0x07]))).map (fun t => (Memory.read t.mem 0xF3, t.pc)) = some (2, 0xF3) ∧
    (next? (step (at_ 254 [0x50, 0x00]))).map (fun t => (t.x[7], t.pc, t.fault)) =
        some (0xF4, 254, some (.addressOutOfRange 256)) := by decide

/-- V-RET-1: the stack pointer is not incremented. -/
theorem test_ret : (next? (step (cell (reg (at_ 15 [0x11]) 7 0xF3) 0xF3 8))).map (fun t => (t.pc, t.x[7])) =
    some (8, 0xF3) := by decide

/-- V-J-1, V-J-2, V-J-9: taken, not taken, taken at 254. -/
theorem test_jeq :
    (next? (step (setFlags (reg (at_ 27 [0x55, 0x04]) 4 18) 1))).map (fun t => t.pc) = some 18 ∧
    (next? (step (setFlags (reg (at_ 27 [0x55, 0x04]) 4 18) 2))).map (fun t => t.pc) = some 29 ∧
    (next? (step (setFlags (reg (at_ 254 [0x55, 0x01]) 1 0x40) 1))).map (fun t => t.pc) = some 0x40 := by decide

/-- V-J-6, V-J-8, V-J-10: no CMP yet; the register check comes before the flags check; not taken at 254. -/
theorem test_jeq_faults :
    (next? (step (at_ 0 [0x55, 0x00]))).map (fun t => t.fault) = some (some .undefinedFlagsRead) ∧
    (next? (step (at_ 0 [0x55, 0x08]))).map (fun t => t.fault) = some (some (.registerIndexOutOfRange 8)) ∧
    (next? (step (setFlags (at_ 254 [0x55, 0x01]) 2))).map (fun t => (t.pc, t.fault)) =
        some (254, some (.addressOutOfRange 256)) := by decide

/-- V-J-3, V-J-4. -/
theorem test_jne :
    (next? (step (setFlags (reg (at_ 27 [0x56, 0x04]) 4 18) 4))).map (fun t => t.pc) = some 18 ∧
    (next? (step (setFlags (reg (at_ 27 [0x56, 0x04]) 4 18) 1))).map (fun t => t.pc) = some 29 := by decide

/-- V-J-5, V-J-12: JMP ignores the flags; at 255 its operand is out of range. -/
theorem test_jmp :
    (next? (step (reg (at_ 5 [0x54, 0x02]) 2 0x40))).map (fun t => (t.pc, t.fault)) = some (0x40, none) ∧
    (next? (step (at_ 255 [0x54]))).map (fun t => (t.pc, t.fault)) = some (255, some (.addressOutOfRange 256)) := by
  decide

/-- V-ADD-1, V-ADD-8: wraps modulo 256, in register 7 too. -/
theorem test_add :
    (next? (step (reg (reg (at_ 0 [0xA0, 0x00, 0x01]) 0 200) 1 100))).map (fun t => (t.x[0], t.flv, t.pc)) =
        some (44, false, 3) ∧
    (next? (step (reg (at_ 0 [0xA0, 0x07, 0x01]) 1 0x10))).map (fun t => t.x[7]) = some 0x04 := by decide

/-- V-ADD-10: operand `a` is checked first. -/
theorem test_add_fault : (next? (step (at_ 0 [0xA0, 0x09, 0x08]))).map (fun t => t.fault) =
    some (some (.registerIndexOutOfRange 9)) := by decide

/-- V-MUL-3, V-MUL-8: low byte of the product; a register times itself. -/
theorem test_mul :
    (next? (step (reg (reg (at_ 0 [0xA2, 0x00, 0x01]) 0 255) 1 255))).map (fun t => t.x[0]) = some 1 ∧
    (next? (step (reg (at_ 0 [0xA2, 0x00, 0x00]) 0 13))).map (fun t => t.x[0]) = some 169 := by decide

/-- V-CMP-4, V-CMP-5: unsigned. -/
theorem test_cmp_unsigned :
    (next? (step (reg (at_ 0 [0xA7, 0x00, 0x01]) 0 255))).map (fun t => (t.fl, t.flv)) = some (2, true) ∧
    (next? (step (reg (at_ 0 [0xA7, 0x00, 0x01]) 1 255))).map (fun t => (t.fl, t.flv)) = some (4, true) := by decide

/-- V-CMP-8: the old flags do not survive. -/
theorem test_cmp_overwrites : (next? (step (setFlags (at_ 0 [0xA7, 0x00, 0x01]) 0xFC))).map (fun t => t.fl) = some 1 := by
  decide

/-- V-DEC-6: decode comes before any operand access; `ir` holds the byte, `run` stays 1. -/
theorem test_unknown_at_end : (next? (step (at_ 255 [0xFF]))).map (fun t => (t.fault, t.ir, t.pc, t.run)) =
    some (some (.unknownOpcode 0xFF), 0xFF, 255, true) := by decide

/-! ### Stops, events, placing a word -/

/-- R70: reset, halted and faulted machines take no step. -/
theorem test_stopped : step State.reset = .fault .notRunning ∧
    step (recordFault (at_ 0 [0x01]) .undefinedFlagsRead) = .fault (.stoppedByFault .undefinedFlagsRead) := ⟨rfl, rfl⟩

/-- R171: Reset, Load, Start, and the first instruction is the one at address 0 (first step of P1). -/
theorem test_boot : (next? (step (applyEvent .start (applyEvent (.load [0x82, 0x00, 0x08]) State.reset)))).map
    (fun t => (t.x[0], t.pc)) = some (8, 3) := by decide

/-- R172: an image of 257 words is refused whole. -/
theorem test_load_too_long : applyEvent (.load (List.replicate 257 1)) State.reset = State.reset := by
  have h : ¬ accepts State.reset (.load (List.replicate 257 1)) := fun h =>
    absurd h.2 (by rw [List.length_replicate]; decide)
  simp only [applyEvent, hostLoad]
  exact if_neg h

/-- `withFetchWord` puts the word where the next step fetches it. -/
theorem test_fetch_word : (next? (step (State.reset.withFetchWord 8 0x54))).map (fun t => (t.pc, t.ir)) = some (0, 0x54) := by
  decide

/-- Memory keeps its canonical form: writing what an unlisted cell reads as removes the entry. -/
theorem test_memory_canonical : Memory.write (Memory.write [] 5 7) 3 9 = [(3, 9), (5, 7)] ∧
    Memory.write [(3, 9), (5, 7)] 3 0 = [(5, 7)] ∧ ¬ Memory.wf [(5, 7), (3, 9)] ∧ ¬ Memory.wf [(3, 0)] ∧
    ¬ Memory.wf [(256, 1)] := by decide

/-! ### Witnesses: the hypotheses of each statement that has some can all be met -/

theorem test_witness_UnknownOpcodeFaultsFirst :
    (Running (at_ 0 [0x00]) ∧ decodeOpcode (byteAtPc (at_ 0 [0x00]) 0) = none) ∧
    (Running (at_ 255 [0xFF]) ∧ decodeOpcode (byteAtPc (at_ 255 [0xFF]) 0) = none) := by decide

theorem test_witness_AluSupportCheckNeverFails :
    (decodeOpcode 0xA7).isSome ∧ (decodeOpcode 0x01).isSome ∧ (next? (step (at_ 0 [0xA0, 0, 0]))).isSome := by decide

theorem test_witness_StepRunsTheDecodedInstruction :
    (Running (at_ 255 [0x01]) ∧ decode (Memory.cellsFrom (at_ 255 [0x01]).mem 255 3) = .ok (.hlt, [])) ∧
    (Running (at_ 0 [0x55, 8, 9]) ∧ decode (Memory.cellsFrom (at_ 0 [0x55, 8, 9]).mem 0 3) = .ok (.jeq 8, [9])) := by
  refine ⟨⟨by decide, rfl⟩, ⟨by decide, rfl⟩⟩

theorem test_witness_StepHappensExactlyWhileRunning :
    (next? (step (at_ 0 [0x01]))).isSome ∧
    (recordFault (at_ 0 [0x01]) .undefinedFlagsRead).fault = some .undefinedFlagsRead ∧
    (State.reset.fault = none ∧ State.reset.run = false) := by decide

/-- One faulting step for each kind the machine can record. -/
theorem test_witness_FaultsArePreciseAndFinal_RecordedFaultShowsItsCause :
    (next? (step (at_ 0 [0x00]))).map (fun t => t.fault) = some (some (.unknownOpcode 0)) ∧
    (next? (step (at_ 255 [0x45]))).map (fun t => t.fault) = some (some (.addressOutOfRange 256)) ∧
    (next? (step (reg (at_ 0 [0x50, 0]) 7 0))).map (fun t => t.fault) = some (some (.addressOutOfRange (-1))) ∧
    (next? (step (at_ 0 [0xA0, 7, 8]))).map (fun t => t.fault) = some (some (.registerIndexOutOfRange 8)) ∧
    (next? (step (at_ 0 [0x56, 7]))).map (fun t => t.fault) = some (some .undefinedFlagsRead) := by decide

/-- Each source of R43 (an operand byte, the next `pc`, CALL's return address, the increment; the decrement stands above). -/
theorem test_witness_RecordedFaultShowsItsCause_sources :
    (next? (step (at_ 255 [0x54]))).map (fun t => t.fault) = some (some (.addressOutOfRange 256)) ∧
    (next? (step (at_ 253 [0xA7, 0, 0]))).map (fun t => t.fault) = some (some (.addressOutOfRange 256)) ∧
    (next? (step (at_ 254 [0x50, 0]))).map (fun t => t.fault) = some (some (.addressOutOfRange 256)) ∧
    (next? (step (reg (at_ 0 [0x46, 0]) 7 255))).map (fun t => t.fault) = some (some (.addressOutOfRange 256)) := by decide

/-- `FaultCause` refuses a recorded 256 that no source of R43 explains: a JMP at 0. -/
theorem test_cause_is_not_free : ¬ FaultCause (at_ 0 [0x54, 0]) (.addressOutOfRange 256) := by
  rintro (⟨h, -⟩ | ⟨-, d, hd, hlt⟩ | ⟨i, hi, -, ⟨h, -⟩ | ⟨-, ⟨a, rfl, -⟩ | ⟨hu, -⟩⟩⟩)
  · cases h
  · cases hd; revert hlt; decide
  · revert h; decide
  · cases hi
  · cases hi; exact hu

/-- A state with the invariant that takes a step, with memory listed and the flags defined. -/
theorem test_witness_EveryStepKeepsInv :
    Inv (setFlags (at_ 0 [0x45, 0x00]) 2) ∧ (next? (step (setFlags (at_ 0 [0x45, 0x00]) 2))).isSome := by
  refine ⟨⟨by decide, by decide, ?_⟩, by decide⟩
  intro k hk
  exact absurd hk (by intro h; cases h)

/-- The events from the reset state: a Reset with other contents, an accepted Load, a Start (the hypotheses of the second
clause). -/
theorem test_witness_EveryStepKeepsInv_events :
    Inv State.reset ∧ Memory.wf (PowerOn.mk [(0, 1), (255, 9)] 0xFF 0xFF).memInit ∧
    (applyEvent .start (applyEvent (.load [0x01]) State.reset)).run = true := by
  refine ⟨⟨by decide, by decide, ?_⟩, by decide, by decide⟩
  intro k hk
  exact absurd hk (by intro h; cases h)

theorem test_witness_ResetStatesHaveInv : Memory.wf (PowerOn.mk [(0, 1), (255, 9)] 0xFF 0xFF).memInit := by decide

theorem test_witness_LoadPlacesTheImageAtZero :
    (Memory.wf State.reset.mem ∧ State.reset.run = false ∧ State.reset.fault = none ∧
      (List.replicate 256 (1 : Byte)).length ≤ 256) ∧
    256 < (List.replicate 257 (1 : Byte)).length ∧ (at_ 0 []).run = true ∧
    (recordFault State.reset .undefinedFlagsRead).fault ≠ none := by
  refine ⟨⟨by decide, rfl, rfl, ?_⟩, ?_, rfl, by decide⟩ <;> rw [List.length_replicate] <;> decide

theorem test_witness_StartSetsRunAndNothingElse :
    (State.reset.run = false ∧ State.reset.fault = none) ∧ (at_ 0 []).run = true ∧
    (recordFault State.reset .undefinedFlagsRead).fault ≠ none ∧
    ((next? (step (at_ 255 [0x01]))).isSome ∧ byteAtPc (at_ 255 [0x01]) 0 = 0x01) := by decide

theorem test_witness_UnacceptedEventsDoNothing :
    ¬ accepts (at_ 0 []) .start ∧ ¬ accepts (at_ 0 []) (.load []) ∧
    (recordFault State.reset .undefinedFlagsRead).fault ≠ none ∧ (∀ p, Event.start ≠ .reset p) := by
  refine ⟨fun h => ?_, fun h => ?_, by decide, fun p h => by cases h⟩
  · exact absurd h.1 (by decide)
  · exact absurd h.1.1 (by decide)

theorem test_witness_MemoryPrimitivesCheckTheirAddress :
    ((-1 : Int) < 0 ∧ (255 : Int) < 256) ∧ ((0 : Nat) ≤ 255 ∧ (255 : Nat) ≤ 255 ∧ Memory.wf State.reset.mem) := by decide

/-- HLT at 0 with two different bytes behind it; a one-operand and a two-operand instruction with a different byte behind. -/
theorem test_witness_UnneededOperandBytesAreNotRead :
    (decodeOpcode (byteAtPc (at_ 0 [0x01, 5, 6]) 0)).map (fun d => d.operandCount) = some 0 ∧
    Memory.read (at_ 0 [0x01]).mem 0 = byteAtPc (at_ 0 [0x01, 5, 6]) 0 ∧
    (decodeOpcode (byteAtPc (at_ 253 [0x47, 5, 6]) 0)).map (fun d => d.operandCount) = some 1 ∧
    (∀ k ∈ [0, 1], Memory.read (at_ 253 [0x47, 5]).mem (253 + k) = byteAtPc (at_ 253 [0x47, 5, 6]) k) ∧
    (decodeOpcode (byteAtPc (at_ 0 [0xA0, 5, 6, 7]) 0)).map (fun d => d.operandCount) = some 2 ∧
    (∀ k ∈ [0, 1, 2], Memory.read (at_ 0 [0xA0, 5, 6]).mem k = byteAtPc (at_ 0 [0xA0, 5, 6, 7]) k) := by decide

/-- The store hits the next `pc` (0xF3 with `pc` 0xF1), and misses it. -/
theorem test_witness_StoresAreSeenByTheNextFetch :
    (Memory.wf (at_ 0xF1 [0x45, 7]).mem ∧ (7 : Byte).toNat < 8 ∧ decSp (at_ 0xF1 [0x45, 7]) = .ok 0xF3 ∧
      (at_ 0xF1 [0x45, 7]).pc.toNat + 2 ≤ 255) ∧
    (Memory.wf (at_ 253 [0x50, 0]).mem ∧ (0 : Byte).toNat < 8 ∧ decSp (at_ 253 [0x50, 0]) = .ok 0xF3 ∧
      (at_ 253 [0x50, 0]).pc.toNat + 2 ≤ 255) := by
  refine ⟨⟨by decide, by decide, rfl, by decide⟩, ⟨by decide, by decide, rfl, by decide⟩⟩

theorem test_witness_NonStoringInstructionsKeepMemory :
    (¬ Stores .hlt ∧ (next? (exec .hlt (at_ 0 []))).isSome) ∧
    (¬ Stores (.pop 7) ∧ (next? (exec (.pop 7) (at_ 0 []))).isSome) ∧
    (¬ Stores (.cmp 0 1) ∧ (next? (exec (.cmp 0 1) (at_ 0 []))).isSome) := by
  refine ⟨⟨id, by decide⟩, ⟨id, by decide⟩, ⟨id, by decide⟩⟩

/-- The slot exists (`x[7]` = 0xF4 and 1), and does not (`x[7]` = 0). -/
theorem test_witness_PushAndCallStoreOneByte :
    ((next? (exec (.push 0) (at_ 0 []))).isSome ∧ decSp (at_ 0 []) = .ok 0xF3) ∧
    ((next? (exec (.call 0) (reg (at_ 0 []) 7 1))).isSome ∧ decSp (reg (at_ 0 []) 7 1) = .ok 0) ∧
    ((next? (exec (.push 0) (reg (at_ 0 []) 7 0))).isSome ∧
      decSp (reg (at_ 0 []) 7 0) = .error (.addressOutOfRange (-1))) := by
  refine ⟨⟨by decide, rfl⟩, ⟨by decide, rfl⟩, ⟨by decide, rfl⟩⟩

theorem test_witness_RegistersOutsideTheDestinationsAreKept :
    ((next? (exec (.ldi 3 9) (at_ 0 []))).isSome ∧ ((7 : Fin 8).val ∉ destRegs (.ldi 3 9))) ∧
    ((next? (exec (.pop 3) (at_ 0 []))).isSome ∧ ((2 : Fin 8).val ∉ destRegs (.pop 3))) ∧
    ((next? (exec (.jmp 7) (at_ 0 []))).isSome ∧ ((7 : Fin 8).val ∉ destRegs (.jmp 7))) := by decide

theorem test_witness_OtherElementsAreKept :
    (next? (exec (.mul 0 1) (at_ 0 []))).isSome ∧ (∀ a b, Instr.mul 0 1 ≠ .cmp a b) ∧ Instr.mul 0 1 ≠ .hlt ∧
    (∀ a, Instr.mul 0 1 ≠ .prn a) := by
  refine ⟨by decide, ?_, ?_, ?_⟩
  · intro a b h; cases h
  · intro h; cases h
  · intro a h; cases h

/-- A step that is not CMP; one that is neither CMP, JEQ nor JNE; a JEQ and a JNE with other bits 7 to 1; a CMP that
completes. -/
theorem test_witness_FlagsAreReadThroughBitZeroAlone :
    ((next? (step (at_ 0 [0xA0, 0, 1]))).isSome ∧ byteAtPc (at_ 0 [0xA0, 0, 1]) 0 = 0xA0) ∧
    ((next? (step (setFlags (at_ 0 [0x55, 0]) 1))).isSome ∧ byteAtPc (at_ 0 [0x55, 0]) 0 = 0x55 ∧
      (0xFF : Byte).getLsbD 0 = (setFlags (at_ 0 [0x55, 0]) 1).fl.getLsbD 0) ∧
    ((next? (step (setFlags (at_ 0 [0x56, 0]) 2))).isSome ∧ byteAtPc (at_ 0 [0x56, 0]) 0 = 0x56 ∧
      (0xFE : Byte).getLsbD 0 = (setFlags (at_ 0 [0x56, 0]) 2).fl.getLsbD 0) ∧
    ((next? (step (at_ 252 [0xA7, 0, 1]))).map (fun t => t.fault) = some none ∧
      byteAtPc (at_ 252 [0xA7, 0, 1]) 0 = 0xA7) := by decide

theorem test_witness_OnlyHltClearsRun_OnlyPrnEmits_InstructionRegisterIsTransient :
    ((next? (step (at_ 0 [0x01]))).map (fun t => t.run) = some false) ∧
    ((next? (step (at_ 0 [0x11]))).map (fun t => t.run) = some true ∧ byteAtPc (at_ 0 [0x11]) 0 ≠ 0x47) ∧
    ((next? (step (at_ 0 [0x47, 7]))).map (fun t => t.out) = some [0xF4] ∧ byteAtPc (at_ 0 [0x47, 7]) 0 = 0x47) ∧
    ((next? (step (at_ 254 [0x47, 7]))).map (fun t => (t.out, t.fault)) = some ([], some (.addressOutOfRange 256))) := by
  decide

/-- Each clause at the last place where the instruction completes; HLT and RET at 255. -/
theorem test_witness_PlacementNearTheEndOfMemory :
    (next? (step (at_ 252 [0x82, 0, 0]))).map (fun t => t.fault) = some none ∧
    (next? (step (at_ 252 [0xA7, 0, 0]))).map (fun t => t.fault) = some none ∧
    (next? (step (at_ 253 [0x47, 0]))).map (fun t => t.fault) = some none ∧
    (next? (step (at_ 253 [0x50, 0]))).map (fun t => t.fault) = some none ∧
    (next? (step (setFlags (at_ 253 [0x55, 0]) 2))).map (fun t => (t.fault, t.pc)) = some (none, 255) ∧
    (next? (step (setFlags (at_ 253 [0x56, 0]) 1))).map (fun t => (t.fault, t.pc)) = some (none, 255) ∧
    (next? (step (setFlags (at_ 254 [0x55, 0]) 1))).map (fun t => t.fault) = some none ∧
    (next? (step (at_ 254 [0x54, 0]))).map (fun t => t.fault) = some none ∧
    (Running (at_ 255 [0x01]) ∧ byteAtPc (at_ 255 [0x01]) 0 = 0x01) ∧
    (Running (at_ 255 [0x11]) ∧ byteAtPc (at_ 255 [0x11]) 0 = 0x11) := by decide

theorem test_witness_RegisterBytesAboveSevenFault :
    (Instr.ldi 8 0).regOperands.find? (fun r => decide (8 ≤ r.toNat)) = some 8 ∧
    (Instr.add 7 8).regOperands.find? (fun r => decide (8 ≤ r.toNat)) = some 8 ∧
    (Instr.cmp 255 8).regOperands.find? (fun r => decide (8 ≤ r.toNat)) = some 255 ∧
    ((Instr.ldi 7 255).WellFormed ∧ (at_ 0 []).fault = none ∧ (next? (exec (.ldi 7 255) (at_ 0 []))).isSome) := by decide

theorem test_witness_StackPointerNeverWraps :
    ((0 : Byte).toNat < 8 ∧ (7 : Byte).toNat < 8 ∧ (reg (at_ 0 []) 7 0).x[7] = 0) ∧
    ((6 : Byte).toNat < 8 ∧ (6 : Byte) ≠ 7 ∧ (reg (at_ 0 []) 7 255).x[7] = 255) ∧
    Memory.read (cell (at_ 0 []) 0xF4 255).mem (cell (at_ 0 []) 0xF4 255).x[7].toNat = 255 := by decide

/-- LDI, ADD, MUL, CMP: registers 0 and 7, `pc` 0 and the last one, 252. -/
theorem test_witness_LdiCompletes_AddCompletes_MulCompletes_CmpCompletes :
    (0 : Byte).toNat < 8 ∧ (7 : Byte).toNat < 8 ∧ (at_ 0 []).pc.toNat + 3 ≤ 255 ∧ (at_ 252 []).pc.toNat + 3 ≤ 255 := by
  decide

/-- PRN, PUSH, CALL: registers 0 and 7, `pc` 0 and the last one, 253, stack pointer 0xF4 and 1. -/
theorem test_witness_PrnCompletes_PushCompletes_CallCompletes :
    (0 : Byte).toNat < 8 ∧ (7 : Byte).toNat < 8 ∧ (at_ 0 []).pc.toNat + 2 ≤ 255 ∧ (at_ 253 []).x[7] ≠ 0 ∧
    (at_ 253 []).pc.toNat + 2 ≤ 255 ∧ (reg (at_ 253 []) 7 1).x[7] ≠ 0 := by decide

/-- POP into register 0 with the stack pointer at 254, and into register 7 with a popped 254. -/
theorem test_witness_PopCompletes :
    ((0 : Byte).toNat < 8 ∧ (0 : Byte) = Memory.read (reg (at_ 253 []) 7 254).mem 254 ∧
      (if (0 : Byte) = 7 then (0 : Byte) else (reg (at_ 253 []) 7 254).x[7]) ≠ 255 ∧ (at_ 253 []).pc.toNat + 2 ≤ 255) ∧
    ((7 : Byte).toNat < 8 ∧ (254 : Byte) = Memory.read (cell (at_ 0 []) 0xF4 254).mem (at_ 0 []).x[7].toNat ∧
      (if (7 : Byte) = 7 then (254 : Byte) else (at_ 0 []).x[7]) ≠ 255) := by decide

/-- JEQ and JNE taken at 254 and falling through at 253; JMP needs a register only. -/
theorem test_witness_JeqCompletes_JneCompletes_JmpCompletes :
    ((7 : Byte).toNat < 8 ∧ (setFlags (at_ 254 []) 1).flv = true ∧
      ((setFlags (at_ 254 []) 1).fl.getLsbD 0 = false → (setFlags (at_ 254 []) 1).pc.toNat + 2 ≤ 255)) ∧
    ((setFlags (at_ 253 []) 2).flv = true ∧
      ((setFlags (at_ 253 []) 2).fl.getLsbD 0 = false → (setFlags (at_ 253 []) 2).pc.toNat + 2 ≤ 255)) ∧
    ((setFlags (at_ 254 []) 2).flv = true ∧
      ((setFlags (at_ 254 []) 2).fl.getLsbD 0 = true → (setFlags (at_ 254 []) 2).pc.toNat + 2 ≤ 255)) ∧
    ((setFlags (at_ 253 []) 1).fl.getLsbD 0 = true → (setFlags (at_ 253 []) 1).pc.toNat + 2 ≤ 255) := by decide

/-- HLT and RET at the first and the last address. -/
theorem test_witness_HltStepsByItsRule_RetStepsByItsRule :
    ∀ p ∈ [(0 : Byte), 254, 255], (Running (at_ p [0x01]) ∧ byteAtPc (at_ p [0x01]) 0 = 0x01) ∧
      (Running (at_ p [0x11]) ∧ byteAtPc (at_ p [0x11]) 0 = 0x11) := by decide

/-- One-operand instructions: the last place that completes, the advance beyond 255, the operand beyond 255, and a register
byte of 7 and of 8. -/
theorem test_witness_one_operand_StepsByItsRule :
    ∀ op ∈ [(0x47 : Byte), 0x45, 0x46, callOpcode, 0x55, 0x56, 0x54], ∀ p ∈ [(0 : Byte), 253, 254, 255],
      ∀ a ∈ [(7 : Byte), 8], Running (at_ p [op, a]) ∧ byteAtPc (at_ p [op, a]) 0 = op ∧
        (p ≠ 255 → byteAtPc (at_ p [op, a]) 1 = a) := by decide

/-- Two-operand instructions: the last place that completes, the advance, operand `b` and operand `a` beyond 255, and register
bytes of 7 and of 8. -/
theorem test_witness_two_operand_StepsByItsRule :
    ∀ op ∈ [(0x82 : Byte), 0xA0, 0xA2, 0xA7], ∀ p ∈ [(0 : Byte), 252, 253, 254, 255],
      ∀ a ∈ [(7 : Byte), 8], Running (at_ p [op, a, a]) ∧ byteAtPc (at_ p [op, a, a]) 0 = op ∧
        (p.toNat ≤ 254 → byteAtPc (at_ p [op, a, a]) 1 = a) ∧ (p.toNat ≤ 253 → byteAtPc (at_ p [op, a, a]) 2 = a) := by
  decide

/-- POP and the conditional jumps have a further value in their hypotheses or branches: the popped byte, and the flags. -/
theorem test_witness_PopStepsByItsRule_JeqStepsByItsRule_JneStepsByItsRule :
    (255 : Byte) = Memory.read (cell (at_ 0 [0x46, 7]) 0xF4 255).mem (cell (at_ 0 [0x46, 7]) 0xF4 255).x[7].toNat ∧
    (at_ 0 [0x55, 7]).flv = false ∧ (setFlags (at_ 254 [0x55, 7]) 1).fl.getLsbD 0 = true ∧
    (setFlags (at_ 254 [0x56, 7]) 2).fl.getLsbD 0 = false := by decide

theorem test_witness_PushThenPopRoundTrips_CallThenRetReturnsAndLeaksOneByte :
    ∀ a ∈ [(0 : Byte), 7], Memory.wf (at_ 251 []).mem ∧ a.toNat < 8 ∧ (at_ 251 []).x[7] ≠ 0 ∧
      (at_ 251 []).pc.toNat + 4 ≤ 255 ∧ (reg (at_ 251 []) 7 1).x[7] ≠ 0 := by decide

/-- The three relations of the table, with registers 0, 1 and 7. -/
theorem test_witness_CmpOutcomeTable :
    ((0 : Byte).toNat < 8 ∧ (1 : Byte).toNat < 8 ∧ (7 : Byte).toNat < 8 ∧ (at_ 250 []).pc.toNat + 5 ≤ 255) ∧
    (at_ 250 []).x[0].toNat = (at_ 250 []).x[1].toNat ∧
    (reg (at_ 250 []) 0 255).x[0].toNat > (reg (at_ 250 []) 0 255).x[1].toNat ∧
    (reg (at_ 250 []) 1 255).x[0].toNat < (reg (at_ 250 []) 1 255).x[1].toNat := by decide

end Sys2Proof.Tests
end

namespace Sys2Proof.Machine

/-! ### What Reset leaves (R25, R170) -/

@[simp] theorem resetFrom_pc (p : PowerOn) : (State.resetFrom p).pc = 0 := rfl
@[simp] theorem resetFrom_fl (p : PowerOn) : (State.resetFrom p).fl = p.fl := rfl
@[simp] theorem resetFrom_ir (p : PowerOn) : (State.resetFrom p).ir = p.ir := rfl
@[simp] theorem resetFrom_run (p : PowerOn) : (State.resetFrom p).run = false := rfl
@[simp] theorem resetFrom_out (p : PowerOn) : (State.resetFrom p).out = [] := rfl

/-- The register file after Reset: the stack pointer's reset value in register 7, 0 elsewhere. -/
theorem readReg_resetFrom (p : PowerOn) (i : Fin 8) :
    readReg (State.resetFrom p) i = if i = 7 then 0xF4 else 0 := by
  have hall : ∀ j : Fin 8, (#v[0, 0, 0, 0, 0, 0, 0, Config.spReset] : Vector Byte 8)[j.val] =
      if j = 7 then 0xF4 else 0 := by decide
  exact hall i

/-- Settles O14: Reset answers the reset state of its open values, whatever the state before it. -/
theorem resetLeavesTheStatedValues : Obligations.ResetLeavesTheStatedValues := by
  intro p s
  simp only [applyEvent_reset]
  refine ⟨fun i hi => ?_, ?_, resetFrom_pc p, resetFrom_run p, resetFrom_flv p, resetFrom_fault p, resetFrom_out p,
    resetFrom_mem p, resetFrom_fl p, resetFrom_ir p⟩
  · rw [readReg_resetFrom, if_neg hi]
  · rw [readReg_resetFrom, if_pos rfl]

/-! ### The opcode byte of the fetched instruction -/

@[simp] theorem mnemonic_buildInstr (m : Mnemonic) (a b : Byte) : (buildInstr m a b).mnemonic = m := by
  cases m <;> rfl

/-- 0xA7 is the opcode of no row but CMP's (R54). -/
theorem eq_cmp_of_opcodeOf_eq {m : Mnemonic} (h : opcodeOf m = 0xA7) : m = .cmp := by
  revert h
  cases m <;> decide

/-- The instruction fetched at `pc` belongs to the row whose opcode is the byte there (R53, R72). -/
theorem byteAtPc_of_fetchDecode_ok {s : State} {i : Instr} (h : fetchDecode s = .ok i) :
    byteAtPc s 0 = opcodeOf i.mnemonic := by
  cases hd : decodeOpcode (byteAtPc s 0) with
  | none => rw [fetchDecode_unknown s hd] at h; cases h
  | some d =>
    rw [fetchDecode_known s hd] at h
    split at h
    · cases h
      rw [mnemonic_buildInstr]
      exact eq_opcodeOf_of_decodeOpcode hd
    · cases h

/-! ### The step of a running machine -/

section RunningStep

variable {s : State} (hrun : s.run = true) (hfault : s.fault = none)
include hrun hfault

theorem step_of_fetchDecode_ok {i : Instr} (hd : fetchDecode s = .ok i) :
    step s = exec i (latchIr s (byteAtPc s 0)) := by
  simp only [step, hfault, hrun, hd, if_true]

theorem step_of_fetchDecode_error {k : FaultKind} (hd : fetchDecode s = .error k) :
    step s = .next (recordFault (latchIr s (byteAtPc s 0)) k) := by
  simp only [step, hfault, hrun, hd, if_true, raise_eq]

end RunningStep

/-! ### An outcome with its next state changed -/

/-- The outcome with `g` applied to the next state, if it has one. -/
def mapNext (g : State → State) : Result → Result
  | .next s => .next (g s)
  | .fault r => .fault r
  | .refused r => .refused r

@[simp] theorem mapNext_next (g : State → State) (s : State) : mapNext g (.next s) = .next (g s) := rfl

/-- A change of the state that recording a fault commutes with passes through a check. -/
theorem mapNext_checked {α : Type} {g : State → State} {s : State} (c : Except FaultKind α) (k : α → Result)
    (hg : ∀ f, g (recordFault s f) = recordFault (g s) f) :
    mapNext g (checked c s k) = checked c (g s) fun v => mapNext g (k v) := by
  cases c with
  | ok v => rfl
  | error f => simp only [checked_error, mapNext_next, hg]

/-! ### The same machine with other flags (R17) -/

/-- `s` with other flags, defined or not. -/
def withFlags (f : Byte) (v : Bool) (s : State) : State := { s with fl := f, flv := v }

section WithFlags

variable (f : Byte) (v : Bool) (s : State)

@[simp] theorem withFlags_self : withFlags s.fl s.flv s = s := rfl
@[simp] theorem withFlags_fl : (withFlags f v s).fl = f := rfl
@[simp] theorem withFlags_flv : (withFlags f v s).flv = v := rfl
@[simp] theorem byteAtPc_withFlags (k : Nat) : byteAtPc (withFlags f v s) k = byteAtPc s k := rfl
@[simp] theorem fetchDecode_withFlags : fetchDecode (withFlags f v s) = fetchDecode s := rfl
@[simp] theorem latchIr_withFlags (b : Byte) : latchIr (withFlags f v s) b = withFlags f v (latchIr s b) := rfl
@[simp] theorem recordFault_withFlags (k : FaultKind) :
    recordFault (withFlags f v s) k = withFlags f v (recordFault s k) := rfl
@[simp] theorem setPc_withFlags (b : Byte) : setPc (withFlags f v s) b = withFlags f v (setPc s b) := rfl
@[simp] theorem readReg_withFlags (i : Fin 8) : readReg (withFlags f v s) i = readReg s i := rfl
@[simp] theorem nextPc_withFlags (k : Nat) : nextPc (withFlags f v s) k = nextPc s k := rfl

/-- CMP's write leaves nothing of the flags it finds (R16, R128). -/
@[simp] theorem setFlags_withFlags (b : Byte) : setFlags (withFlags f v s) b = setFlags s b := rfl

/-- JEQ and JNE read bit 0 of `fl` (R17), and see whether it is defined (R18). -/
theorem readEqual_withFlags_of_bit_zero (hf : f.getLsbD 0 = s.fl.getLsbD 0) :
    readEqual (withFlags f s.flv s) = readEqual s := by
  simp only [readEqual, withFlags_flv, withFlags_fl, Config.flE, hf]

theorem mapNext_withFlags_checked {α : Type} (c : Except FaultKind α) (k : α → Result) :
    mapNext (withFlags f v) (checked c s k) = checked c (withFlags f v s) fun x => mapNext (withFlags f v) (k x) :=
  mapNext_checked c k fun e => (recordFault_withFlags f v s e).symm

@[simp] theorem writeReg_withFlags (i : Fin 8) (b : Byte) :
    writeReg (withFlags f v s) i b = withFlags f v (writeReg s i b) := rfl

/-- An ALU operation that writes a register, ADD or MUL, has no use for the flags (R130). -/
theorem aluOperation_writeReg_withFlags (op : Byte → Byte → Byte) (a b : Byte) :
    aluOperation (fun s i x y => writeReg s i (op x y)) a b (withFlags f v s) =
      mapNext (withFlags f v) (aluOperation (fun s i x y => writeReg s i (op x y)) a b s) := by
  simp only [aluOperation, mapNext_withFlags_checked, mapNext_next, readReg_withFlags, nextPc_withFlags,
    writeReg_withFlags, setPc_withFlags]

/-- A conditional jump does the same under flags that show it the same Equal bit (R112, R113). -/
theorem jumpWhenEqualIs_withFlags (taken : Bool) (a : Byte) (he : readEqual (withFlags f v s) = readEqual s) :
    jumpWhenEqualIs taken a (withFlags f v s) = mapNext (withFlags f v) (jumpWhenEqualIs taken a s) := by
  simp only [jumpWhenEqualIs, mapNext_withFlags_checked, he, apply_ite (mapNext (withFlags f v)), mapNext_next,
    readReg_withFlags, nextPc_withFlags, setPc_withFlags]

/-- Every meaning but CMP's commutes with a change of the flags, JEQ's and JNE's if the Equal bit they read is the same
(R17). -/
theorem exec_withFlags {i : Instr} (hcmp : i.mnemonic ≠ .cmp)
    (hread : i.mnemonic = .jeq ∨ i.mnemonic = .jne → readEqual (withFlags f v s) = readEqual s) :
    exec i (withFlags f v s) = mapNext (withFlags f v) (exec i s) := by
  cases i with
  | hlt => rfl
  | ldi a b => simp only [exec, execLdi, mapNext_withFlags_checked]; rfl
  | prn a => simp only [exec, execPrn, mapNext_withFlags_checked]; rfl
  | push a => simp only [exec, execPush, memWrite_byte, checked_ok, mapNext_withFlags_checked]; rfl
  | pop a => simp only [exec, execPop, mapNext_withFlags_checked]; rfl
  | call a => simp only [exec, execCall, memWrite_byte, checked_ok, mapNext_withFlags_checked]; rfl
  | ret => simp only [exec, execRet, mapNext_withFlags_checked]; rfl
  | jeq a => exact jumpWhenEqualIs_withFlags f v s true a (hread (.inl rfl))
  | jne a => exact jumpWhenEqualIs_withFlags f v s false a (hread (.inr rfl))
  | jmp a => simp only [exec, execJmp, mapNext_withFlags_checked]; rfl
  | add a b => exact aluOperation_writeReg_withFlags f v s aluAdd a b
  | mul a b => exact aluOperation_writeReg_withFlags f v s aluMul a b
  | cmp a b => exact absurd rfl hcmp

variable {s} {t : State}

/-- A running machine with other flags executes the same instruction, after the same latch of `ir`. -/
theorem step_withFlags_of_fetchDecode_ok {i : Instr} (hrun : s.run = true) (hfault : s.fault = none)
    (hd : fetchDecode s = .ok i) : step (withFlags f v s) = exec i (withFlags f v (latchIr s (byteAtPc s 0))) := by
  have hd' : fetchDecode (withFlags f v s) = .ok i := by rw [fetchDecode_withFlags, hd]
  rw [step_of_fetchDecode_ok (s := withFlags f v s) hrun hfault hd', byteAtPc_withFlags, latchIr_withFlags]

/-- A step of anything but CMP commutes with a change of the flags, that of JEQ and JNE if the Equal bit they read is the
same (R17). -/
theorem step_withFlags (h : step s = .next t) (hcmp : byteAtPc s 0 ≠ 0xA7)
    (hread : byteAtPc s 0 = 0x55 ∨ byteAtPc s 0 = 0x56 → readEqual (withFlags f v s) = readEqual s) :
    step (withFlags f v s) = .next (withFlags f v t) := by
  obtain ⟨hrun, hfault, ⟨i, hd, hexec⟩ | ⟨k, hd, rfl⟩⟩ := step_next s t h
  · have hop : byteAtPc s 0 = opcodeOf i.mnemonic := byteAtPc_of_fetchDecode_ok hd
    have hnotCmp : i.mnemonic ≠ .cmp := fun hm => hcmp (by rw [hop, hm]; rfl)
    have hjump : i.mnemonic = .jeq ∨ i.mnemonic = .jne → readEqual (withFlags f v s) = readEqual s := by
      rintro (hm | hm) <;> rw [hop, hm] at hread
      · exact hread (.inl rfl)
      · exact hread (.inr rfl)
    calc step (withFlags f v s)
        = exec i (withFlags f v (latchIr s (byteAtPc s 0))) :=
          step_withFlags_of_fetchDecode_ok f v hrun hfault hd
      _ = mapNext (withFlags f v) (exec i (latchIr s (byteAtPc s 0))) := exec_withFlags f v _ hnotCmp hjump
      _ = .next (withFlags f v t) := by rw [hexec, mapNext_next]
  · have hd' : fetchDecode (withFlags f v s) = .error k := by rw [fetchDecode_withFlags, hd]
    rw [step_of_fetchDecode_error (s := withFlags f v s) hrun hfault hd', byteAtPc_withFlags, latchIr_withFlags,
      recordFault_withFlags]

/-- A step of anything but CMP leaves the flags: it commutes with giving them the value they have. -/
theorem step_keeps_flags (h : step s = .next t) (hcmp : byteAtPc s 0 ≠ 0xA7) : t.fl = s.fl ∧ t.flv = s.flv := by
  have hself : step (withFlags s.fl s.flv s) = .next (withFlags s.fl s.flv t) :=
    step_withFlags s.fl s.flv h hcmp fun _ => rfl
  rw [withFlags_self, h] at hself
  have ht : t = withFlags s.fl s.flv t := Host.Outcome.next.inj hself
  rw [ht]
  exact ⟨withFlags_fl .., withFlags_flv ..⟩

/-- A CMP that completes leaves the same state whatever flags it finds (R128). -/
theorem execCmp_withFlags {a b : Byte} (h : execCmp a b s = .next t) (ht : t.fault = none) :
    execCmp a b (withFlags f v s) = .next t := by
  obtain ⟨ra, rb, hra, hrb, hpc, rfl⟩ | ⟨k, rfl, -⟩ := execCmp_next s t h
  · have hn : nextPc s 3 = .ok (s.pc + 3) := (nextPc_ok s 3 hpc).trans (congrArg Except.ok (ofNat_pc_add s.pc 3))
    simp only [execCmp, aluOperation, hra, hrb, nextPc_withFlags, hn, checked_ok, readReg_withFlags, setFlags_withFlags]
  · cases ht

/-- A step of CMP that completes leaves the same state whatever flags it finds (R17). -/
theorem step_cmp_withFlags (h : step s = .next t) (hcmp : byteAtPc s 0 = 0xA7) (ht : t.fault = none) :
    step (withFlags f v s) = .next t := by
  obtain ⟨hrun, hfault, ⟨i, hd, hexec⟩ | ⟨k, -, rfl⟩⟩ := step_next s t h
  · have hm : i.mnemonic = .cmp := eq_cmp_of_opcodeOf_eq ((byteAtPc_of_fetchDecode_ok hd).symm.trans hcmp)
    have hstep : step (withFlags f v s) = exec i (withFlags f v (latchIr s (byteAtPc s 0))) :=
      step_withFlags_of_fetchDecode_ok f v hrun hfault hd
    cases i with
    | cmp a b => exact hstep.trans (execCmp_withFlags f v hexec ht)
    | _ => cases hm
  · cases ht

end WithFlags

/-- Settles O25: a step of anything but CMP commutes with a change of the flags that JEQ and JNE do not see, and a CMP that
completes overwrites them. -/
theorem flagsAreReadThroughBitZeroAlone : Obligations.FlagsAreReadThroughBitZeroAlone := by
  refine ⟨fun s t h hcmp => step_keeps_flags h hcmp, ?_, ?_, fun s t f v h hcmp ht => step_cmp_withFlags f v h hcmp ht⟩
  · intro s t f v h hcmp hjeq hjne
    exact step_withFlags f v h hcmp fun hjump => absurd hjump (not_or.mpr ⟨hjeq, hjne⟩)
  · intro s t f h hjump hf
    have hcmp : byteAtPc s 0 ≠ 0xA7 := by rcases hjump with hop | hop <;> rw [hop] <;> decide
    calc step (withFlags f s.flv s)
        = .next (withFlags f s.flv t) :=
          step_withFlags f s.flv h hcmp fun _ => readEqual_withFlags_of_bit_zero f s hf
      _ = .next { t with fl := f } := by rw [← (step_keeps_flags h hcmp).2]; rfl

end Sys2Proof.Machine

namespace Sys2Proof.Machine

/-! ### The address check of the memory primitives (R31) -/

section OutsideMemory

variable (s : State) {n : Int} (h : n < 0 ∨ 255 < n)
include h

theorem memRead_out_of_range : memRead s n = .error (.addressOutOfRange n) := if_pos h

theorem memWrite_out_of_range (v : Byte) : memWrite s n v = .error (.addressOutOfRange n) := if_pos h

end OutsideMemory

/-- An address from 0 to 255 is a byte, so the laws of accesses at a byte address speak of it. -/
theorem exists_byte_of_address {n : Nat} (h : n ≤ 255) : ∃ a : Byte, a.toNat = n :=
  ⟨BitVec.ofNatLT n (Nat.lt_succ_of_le h), BitVec.toNat_ofNatLT n _⟩

/-- Settles O18: outside 0 to 255 the check of R31 answers; inside, the address is a byte and the laws of reads and writes at
a byte address apply. -/
theorem memoryPrimitivesCheckTheirAddress : Obligations.MemoryPrimitivesCheckTheirAddress := by
  refine ⟨fun s n v h => ⟨memRead_out_of_range s h, memWrite_out_of_range s h v⟩, fun s n v hn hm => ?_⟩
  obtain ⟨a, rfl⟩ := exists_byte_of_address hn
  exact ⟨memRead_byte s a, Memory.write s.mem a.toNat v, memWrite_byte s a v, Memory.wf_write_byte s.mem hm a v,
    Memory.read_write_same s.mem hm a.toNat v, fun b hb => Memory.read_write_other s.mem a.toNat b v hb⟩

end Sys2Proof.Machine

namespace Sys2Proof

/-! ### Decode as a match on the opcode byte (R53) -/

/-- Each row is found under its opcode, so the 13 opcodes are distinct (R54). -/
theorem decodeOpcode_of_mem {op : Byte} {d : OpEntry} (h : (op, d) ∈ opcodeTable) : decodeOpcode op = some d := by
  have hall : ∀ row ∈ opcodeTable, decodeOpcode row.1 = some row.2 := by decide
  exact hall _ h

/-- The operand phase fails only for a missing byte (R75). -/
theorem takeOperands_eq_error {n : Nat} {bs : List Byte} {e : DecodeError} (h : takeOperands n bs = .error e) :
    ∃ k, e = .byteMissing k := by
  unfold takeOperands at h
  split at h <;> cases h <;> exact ⟨_, rfl⟩

/-- A byte with an entry is never an unknown opcode: its operand bytes can only be missing. -/
theorem decode_ne_unknown {op : Byte} {d : OpEntry} (rest : List Byte) (h : decodeOpcode op = some d) :
    decode (op :: rest) ≠ .error (.unknownOpcode op) := by
  rw [decode_known rest h]
  cases ho : takeOperands d.operandCount rest with
  | ok o => nofun
  | error e =>
    obtain ⟨k, rfl⟩ := takeOperands_eq_error ho
    nofun

/-- Settles O2: the look-up finds exactly the rows, and only the look-up answers UnknownOpcode. -/
theorem decodeMatchesTheWholeOpcodeByte : Obligations.DecodeMatchesTheWholeOpcodeByte := by
  refine ⟨fun op d => ⟨decodeOpcode_mem, decodeOpcode_of_mem⟩, fun op rest => ⟨fun h => ?_, decode_unknown rest⟩⟩
  cases hd : decodeOpcode op with
  | none => rfl
  | some d => exact absurd h (decode_ne_unknown rest hd)

end Sys2Proof

namespace Sys2Proof.Machine

/-! ### The check of the register operands (R56, R76) -/

variable {s t : State} {i : Instr} {v : Byte}

/-- The checks of a list of register operands in order: the first bad byte raises, whether it is the one checked here or one
the continuation checks. -/
theorem checked_regidx_of_first_bad {a : Byte} {rs : List Byte} {k : Fin 8 → Result}
    (h : (a :: rs).find? (fun r => decide (8 ≤ r.toNat)) = some v)
    (hk : rs.find? (fun r => decide (8 ≤ r.toNat)) = some v →
      ∀ ra, k ra = .next (recordFault s (.registerIndexOutOfRange v))) :
    checked (regidx a) s k = .next (recordFault s (.registerIndexOutOfRange v)) := by
  by_cases ha : a.toNat < 8
  · rw [List.find?_cons_of_neg (by simpa using ha)] at h
    rw [regidx_ok a ha, checked_ok, hk h]
  · rw [List.find?_cons_of_pos (by simpa using ha)] at h
    cases h
    rw [regidx_error _ ha, checked_error]

/-- Every meaning checks its register operands before anything else, `a` before `b`. -/
theorem exec_of_first_bad_register (h : i.regOperands.find? (fun r => decide (8 ≤ r.toNat)) = some v) :
    exec i s = .next (recordFault s (.registerIndexOutOfRange v)) := by
  cases i with
  | hlt | ret => nomatch h
  | ldi | prn | push | pop | call | jeq | jne | jmp => exact checked_regidx_of_first_bad h nofun
  | add | mul | cmp =>
    exact checked_regidx_of_first_bad h fun hb _ => checked_regidx_of_first_bad hb nofun

/-! ### Which check an instruction's fault comes from (R78) -/

/-- A check of R78 fails with `f` in state `s`; a register check is of an operand byte of `i`. -/
inductive CheckFails (s : State) (i : Instr) (f : FaultKind) : Prop where
  | register {r : Byte} (hr : r ∈ i.regOperands) (h : regidx r = .error f)
  | flags (h : readEqual s = .error f)
  | spDecrement (h : decSp s = .error f)
  | spIncrement {sp : Byte} (h : incSp sp = .error f)
  | nextAddress {k : Nat} (h : nextPc s k = .error f)

/-- The fault an ALU operation records, if its one write leaves `fault` as it was. -/
theorem aluOperation_fault_cases {write : State → Fin 8 → Byte → Byte → State} {a b : Byte}
    (hwrite : ∀ ra u w, (write s ra u w).fault = s.fault) (hops : i.regOperands = [a, b])
    (h : aluOperation write a b s = .next t) :
    t.fault = s.fault ∨ ∃ f, t = recordFault s f ∧ CheckFails s i f := by
  rcases aluOperation_next s t h with ⟨ra, rb, _, _, _, rfl⟩ | ⟨f, rfl, hf | hf | hf⟩
  · exact .inl (by rw [setPc_fault, hwrite])
  · exact .inr ⟨f, rfl, .register (by simp [hops]) hf⟩
  · exact .inr ⟨f, rfl, .register (by simp [hops]) hf⟩
  · exact .inr ⟨f, rfl, .nextAddress hf⟩

/-- An instruction completes without touching `fault`, or records in the state it found the fault of one failed check. -/
theorem exec_fault_cases (h : exec i s = .next t) :
    t.fault = s.fault ∨ ∃ f, t = recordFault s f ∧ CheckFails s i f := by
  cases i with
  | hlt => exact .inl (by rw [execHlt_next s t h, clearRun_fault])
  | ldi a b =>
    rcases execLdi_next s t h with ⟨_, _, _, rfl⟩ | ⟨f, rfl, hf | hf⟩
    · exact .inl rfl
    · exact .inr ⟨f, rfl, .register (.head _) hf⟩
    · exact .inr ⟨f, rfl, .nextAddress hf⟩
  | prn a =>
    rcases execPrn_next s t h with ⟨_, _, _, rfl⟩ | ⟨f, rfl, hf | hf⟩
    · exact .inl rfl
    · exact .inr ⟨f, rfl, .register (.head _) hf⟩
    · exact .inr ⟨f, rfl, .nextAddress hf⟩
  | push a =>
    rcases execPush_next s t h with ⟨_, _, _, _, _, rfl⟩ | ⟨f, rfl, hf | hf | hf⟩
    · exact .inl rfl
    · exact .inr ⟨f, rfl, .register (.head _) hf⟩
    · exact .inr ⟨f, rfl, .spDecrement hf⟩
    · exact .inr ⟨f, rfl, .nextAddress hf⟩
  | pop a =>
    rcases execPop_next s t h with ⟨_, _, _, _, _, _, _, rfl⟩ | ⟨f, rfl, hf | ⟨_, hf⟩ | hf⟩
    · exact .inl rfl
    · exact .inr ⟨f, rfl, .register (.head _) hf⟩
    · exact .inr ⟨f, rfl, .spIncrement hf⟩
    · exact .inr ⟨f, rfl, .nextAddress hf⟩
  | call a =>
    rcases execCall_next s t h with ⟨_, _, _, _, _, rfl⟩ | ⟨f, rfl, hf | hf | hf⟩
    · exact .inl rfl
    · exact .inr ⟨f, rfl, .register (.head _) hf⟩
    · exact .inr ⟨f, rfl, .spDecrement hf⟩
    · exact .inr ⟨f, rfl, .nextAddress hf⟩
  | ret => exact .inl (by rw [execRet_next s t h, setPc_fault])
  | jeq a | jne a =>
    rcases jumpWhenEqualIs_next s t h with ⟨_, _, _, _, rfl⟩ | ⟨_, _, _, rfl⟩ | ⟨f, rfl, hf | hf | ⟨_, hf⟩⟩
    · exact .inl rfl
    · exact .inl rfl
    · exact .inr ⟨f, rfl, .register (.head _) hf⟩
    · exact .inr ⟨f, rfl, .flags hf⟩
    · exact .inr ⟨f, rfl, .nextAddress hf⟩
  | jmp a =>
    rcases execJmp_next s t h with ⟨_, _, rfl⟩ | ⟨f, rfl, hf⟩
    · exact .inl rfl
    · exact .inr ⟨f, rfl, .register (.head _) hf⟩
  | add a b => exact aluOperation_fault_cases (fun _ _ _ => rfl) rfl (show execAdd a b s = .next t from h)
  | mul a b => exact aluOperation_fault_cases (fun _ _ _ => rfl) rfl (show execMul a b s = .next t from h)
  | cmp a b => exact aluOperation_fault_cases (fun _ _ _ => rfl) rfl (show execCmp a b s = .next t from h)

/-- A register fault comes from a register operand alone: every other check fails with another kind. -/
theorem mem_regOperands_of_checkFails (h : CheckFails s i (.registerIndexOutOfRange v)) :
    v ∈ i.regOperands ∧ 8 ≤ v.toNat := by
  cases h with
  | register hr h =>
    obtain ⟨hle, hf⟩ := regidx_eq_error h
    cases hf
    exact ⟨hr, hle⟩
  | flags h => nomatch (readEqual_eq_error s h).2
  | spDecrement h => nomatch (decSp_eq_error s h).2
  | spIncrement h => nomatch (incSp_eq_error h).2
  | nextAddress h => nomatch (nextPc_eq_error s h).2

/-- With legal register operands no register fault is recorded. -/
theorem exec_fault_ne_register (hwf : i.WellFormed) (hfault : s.fault = none) (h : exec i s = .next t) :
    t.fault ≠ some (.registerIndexOutOfRange v) := by
  intro ht
  rcases exec_fault_cases h with hkeep | ⟨f, rfl, hcheck⟩
  · rw [hkeep, hfault] at ht
    cases ht
  · cases ht
    obtain ⟨hmem, hle⟩ := mem_regOperands_of_checkFails hcheck
    exact absurd (hwf v hmem) (Nat.not_lt.mpr hle)

/-- Settles O30: the first bad register byte raises before anything else happens, and legal ones never raise. -/
theorem registerBytesAboveSevenFault : Obligations.RegisterBytesAboveSevenFault :=
  ⟨fun _ _ _ h => exec_of_first_bad_register h, fun _ _ _ _ hwf hfault h => exec_fault_ne_register hwf hfault h⟩

end Sys2Proof.Machine

namespace Sys2Proof.Machine

open Sys2Proof.Safety

/-! ### When a step happens (R70) -/

section Step

variable {s t : State}

theorem step_of_fault {k : FaultKind} (h : s.fault = some k) : step s = .fault (.stoppedByFault k) := by
  simp only [step, h]

theorem step_of_not_running (hfault : s.fault = none) (hrun : s.run = false) : step s = .fault .notRunning := by
  simp only [step, hfault, hrun, Bool.false_eq_true, if_false]

theorem jumpWhenEqualIs_total (taken : Bool) (a : Byte) (s : State) : ∃ t, jumpWhenEqualIs taken a s = .next t :=
  checked_total s _ _ fun _ _ => checked_total s _ _ fun _ _ => by
    split
    · exact ⟨_, rfl⟩
    · exact checked_total s _ _ fun _ _ => ⟨_, rfl⟩

/-- Every meaning is a chain of checks that ends in a next state, so it answers one: the raise of the first check that fails
is a next state too (R82). -/
theorem exec_total (i : Instr) (s : State) : ∃ t, exec i s = .next t := by
  cases i with
  | hlt => exact ⟨_, rfl⟩
  | ret | jmp => exact checked_total s _ _ fun _ _ => ⟨_, rfl⟩
  | ldi | prn => exact checked_total s _ _ fun _ _ => checked_total s _ _ fun _ _ => ⟨_, rfl⟩
  | push | pop | call =>
    exact checked_total s _ _ fun _ _ => checked_total s _ _ fun _ _ => checked_total s _ _ fun _ _ =>
      checked_total s _ _ fun _ _ => ⟨_, rfl⟩
  | jeq a | jne a => exact jumpWhenEqualIs_total _ a s
  | add | mul | cmp =>
    exact checked_total s _ _ fun _ _ => checked_total s _ _ fun _ _ => checked_total s _ _ fun _ _ => ⟨_, rfl⟩

/-- A running machine takes a step, whatever lies at `pc`. -/
theorem step_total (hrun : s.run = true) (hfault : s.fault = none) : ∃ t, step s = .next t := by
  cases hd : fetchDecode s with
  | ok i => rw [step_of_fetchDecode_ok hrun hfault hd]; exact exec_total i _
  | error k => exact ⟨_, step_of_fetchDecode_error hrun hfault hd⟩

/-- A step completes, or is the raise of one fault after the latch of `ir` (R78). -/
theorem step_completes_or_raises (h : step s = .next t) : t.fault = none ∨ ∃ k, step s = faultsWith s k := by
  obtain ⟨-, hfault, ⟨i, -, hexec⟩ | ⟨k, -, rfl⟩⟩ := step_next s t h
  · rcases exec_fault_cases hexec with hkeep | ⟨k, rfl, -⟩
    · exact .inl (hkeep.trans hfault)
    · exact .inr ⟨k, h⟩
  · exact .inr ⟨k, h⟩

end Step

/-- Settles O8: a running machine's step is total, and the recorded fault is looked at before `run`. -/
theorem stepHappensExactlyWhileRunning : Obligations.StepHappensExactlyWhileRunning := by
  refine ⟨fun s => ⟨fun ⟨t, h⟩ => ?_, fun ⟨hrun, hfault⟩ => step_total hrun hfault⟩,
    fun _ _ h => step_completes_or_raises h, fun _ _ h => step_of_fault h,
    fun _ hfault hrun => step_of_not_running hfault hrun⟩
  obtain ⟨hrun, hfault, -⟩ := step_next s t h
  exact ⟨hrun, hfault⟩

/-! ### A byte without an entry (R72, R141) -/

/-- The look-up is the first thing a step does with the opcode byte: nothing else of the state takes part. -/
theorem step_of_unknown_opcode {s : State} (hrun : s.run = true) (hfault : s.fault = none)
    (h : decodeOpcode (byteAtPc s 0) = none) : step s = faultsWith s (.unknownOpcode (byteAtPc s 0)) :=
  step_of_fetchDecode_error hrun hfault (fetchDecode_unknown s h)

theorem isSome_decodeOpcode_iff {op : Byte} : (decodeOpcode op).isSome = true ↔ ∃ row ∈ opcodeTable, row.1 = op := by
  rw [Option.isSome_iff_exists]
  constructor
  · rintro ⟨d, hd⟩
    exact ⟨(op, d), decodeOpcode_mem hd, rfl⟩
  · rintro ⟨row, hrow, rfl⟩
    exact ⟨row.2, decodeOpcode_of_mem hrow⟩

/-- The byte values with an entry are the opcodes of the table, each once. -/
theorem filter_isSome_decodeOpcode_perm :
    ((List.range 256).filter (fun n => (decodeOpcode (BitVec.ofNat 8 n)).isSome)).Perm
      (opcodeTable.map (fun row => row.1.toNat)) := by
  have hnodup : (opcodeTable.map (fun row => row.1.toNat)).Nodup := by decide
  refine (List.perm_ext_iff_of_nodup (List.nodup_range.filter _) hnodup).mpr fun n => ?_
  simp only [List.mem_filter, List.mem_range, isSome_decodeOpcode_iff, List.mem_map]
  constructor
  · rintro ⟨hn, row, hrow, hop⟩
    exact ⟨row, hrow, by rw [hop, BitVec.toNat_ofNat, Nat.mod_eq_of_lt hn]⟩
  · rintro ⟨row, hrow, rfl⟩
    exact ⟨row.1.isLt, row, hrow, by rw [BitVec.ofNat_toNat, BitVec.setWidth_eq]⟩

/-- 256 byte values, less the 13 of the table. -/
theorem length_filter_isNone_decodeOpcode :
    ((List.range 256).filter (fun n => (decodeOpcode (BitVec.ofNat 8 n)).isNone)).length = 243 := by
  have hrows : ((List.range 256).filter (fun n => (decodeOpcode (BitVec.ofNat 8 n)).isSome)).length = 13 :=
    filter_isSome_decodeOpcode_perm.length_eq
  have hsplit := List.length_eq_countP_add_countP (l := List.range 256)
    (fun n => (decodeOpcode (BitVec.ofNat 8 n)).isSome)
  simp only [List.countP_eq_length_filter, List.length_range, hrows, Bool.not_eq_true, Option.isSome_eq_false_iff,
    Bool.decide_eq_true] at hsplit
  omega

/-- Settles O5: the fetch of such a byte fails in the look-up, and the table has 13 rows. -/
theorem unknownOpcodeFaultsFirst : Obligations.UnknownOpcodeFaultsFirst :=
  ⟨fun _ ⟨hrun, hfault⟩ h => step_of_unknown_opcode hrun hfault h, length_filter_isNone_decodeOpcode⟩

/-! ### Start (R81) and HLT (R90) -/

section StartAndHlt

variable {s : State}

theorem applyEvent_start_of_idle (h : Idle s) : applyEvent .start s = { s with run := true } := if_pos h

theorem applyEvent_start_of_not_idle (h : ¬ Idle s) : applyEvent .start s = s := if_neg h

theorem fetchDecode_hlt (h : byteAtPc s 0 = 0x01) : fetchDecode s = .ok .hlt := by
  have hd : decodeOpcode (byteAtPc s 0) = some ⟨.hlt, .direct, 0, .f0⟩ := by rw [h]; rfl
  exact fetchDecode_count_zero s hd rfl

/-- The step of HLT: `ir` latched and `run` cleared, at any `pc`. -/
theorem step_hlt (hrun : s.run = true) (hfault : s.fault = none) (h : byteAtPc s 0 = 0x01) :
    step s = .next (clearRun (latchIr s 0x01)) := by
  rw [step_of_fetchDecode_ok hrun hfault (fetchDecode_hlt h), h]
  rfl

/-- HLT leaves `pc` on itself, so the machine that is started again executes it again (D18). -/
theorem step_start_after_hlt {t : State} (h : step s = .next t) (hop : byteAtPc s 0 = 0x01) :
    step (applyEvent .start t) = .next t := by
  obtain ⟨hrun, hfault, -⟩ := step_next s t h
  have ht : t = clearRun (latchIr s 0x01) := Host.Outcome.next.inj (h.symm.trans (step_hlt hrun hfault hop))
  subst ht
  have hidle : Idle (clearRun (latchIr s 0x01)) := ⟨clearRun_run _, hfault⟩
  rw [applyEvent_start_of_idle hidle]
  exact step_hlt rfl hfault hop

end StartAndHlt

/-- Settles O16: Start is accepted exactly when the machine is idle, and a halted machine is. -/
theorem startSetsRunAndNothingElse : Obligations.StartSetsRunAndNothingElse := by
  refine ⟨fun s hrun hfault => applyEvent_start_of_idle ⟨hrun, hfault⟩, fun s h => ?_,
    fun s t h hop => step_start_after_hlt h hop⟩
  refine applyEvent_start_of_not_idle fun ⟨hrun, hfault⟩ => ?_
  rcases h with h | h
  · rw [hrun] at h; cases h
  · exact h hfault

end Sys2Proof.Machine

namespace Sys2Proof.Machine

open Sys2Proof.Safety

/-! ### The checks of an instruction as the branches of its rule (R76, R77) -/

section Checks

variable (s : State)

/-- The register check: go on with the index, or raise. -/
theorem checked_regidx (a : Byte) (k : Fin 8 → Result) :
    checked (regidx a) s k =
      if ha : a.toNat < 8 then k ⟨a.toNat, ha⟩ else .next (recordFault s (.registerIndexOutOfRange a)) := by
  by_cases ha : a.toNat < 8
  · rw [dif_pos ha, regidx_ok a ha, checked_ok]
  · rw [dif_neg ha, regidx_error a ha, checked_error]

/-- The check of `pc + n`: raise, or go on with the sum. -/
theorem checked_nextPc (n : Nat) (k : Byte → Result) :
    checked (nextPc s n) s k =
      if s.pc.toNat + n > 255 then .next (recordFault s (.addressOutOfRange (s.pc.toNat + n)))
      else k (s.pc + BitVec.ofNat 8 n) := by
  by_cases hp : s.pc.toNat + n > 255
  · rw [if_pos hp, nextPc_error s n hp, checked_error, Int.natCast_add]
  · rw [if_neg hp, nextPc_ok s n (Nat.not_lt.mp hp), checked_ok, ofNat_pc_add]

theorem execLdi_eq (a b : Byte) :
    execLdi a b s =
      if ha : a.toNat < 8 then
        if s.pc.toNat + 3 > 255 then .next (recordFault s (.addressOutOfRange (s.pc.toNat + 3)))
        else .next (setPc (writeReg s ⟨a.toNat, ha⟩ b) (s.pc + 3))
      else .next (recordFault s (.registerIndexOutOfRange a)) := by
  simp only [execLdi, checked_regidx, checked_nextPc]
  rfl

theorem execPrn_eq (a : Byte) :
    execPrn a s =
      if ha : a.toNat < 8 then
        if s.pc.toNat + 2 > 255 then .next (recordFault s (.addressOutOfRange (s.pc.toNat + 2)))
        else .next (setPc (emit s (readReg s ⟨a.toNat, ha⟩)) (s.pc + 2))
      else .next (recordFault s (.registerIndexOutOfRange a)) := by
  simp only [execPrn, checked_regidx, checked_nextPc]
  rfl

end Checks

/-! ### A step with operand bytes: the operand phase, then the meaning (R75, R82) -/

section OperandPhase

variable {s : State} {d : OpEntry} (hrun : s.run = true) (hfault : s.fault = none)
  (hd : decodeOpcode (byteAtPc s 0) = some d)
include hrun hfault hd

theorem step_of_count_one (hn : d.operandCount = 1) :
    step s =
      if s.pc.toNat + 1 > 255 then faultsWith s (.addressOutOfRange (s.pc.toNat + 1))
      else exec (buildInstr d.mnemonic (byteAtPc s 1) 0) (latchIr s (byteAtPc s 0)) := by
  have hfetch := fetchDecode_count_one s hd hn
  by_cases hp : s.pc.toNat + 1 > 255
  · have hsum : (s.pc.toNat + 1 : Int) = 256 := by have := s.pc.isLt; omega
    rw [if_pos hp] at hfetch ⊢
    rw [hsum]
    exact step_of_fetchDecode_error hrun hfault hfetch
  · rw [if_neg hp] at hfetch ⊢
    exact step_of_fetchDecode_ok hrun hfault hfetch

theorem step_of_count_two (hn : d.operandCount = 2) :
    step s =
      if s.pc.toNat + 2 > 255 then faultsWith s (.addressOutOfRange 256)
      else exec (buildInstr d.mnemonic (byteAtPc s 1) (byteAtPc s 2)) (latchIr s (byteAtPc s 0)) := by
  have hfetch := fetchDecode_count_two s hd hn
  by_cases hp : s.pc.toNat + 2 > 255
  · rw [if_pos hp] at hfetch ⊢
    exact step_of_fetchDecode_error hrun hfault hfetch
  · rw [if_neg hp] at hfetch ⊢
    exact step_of_fetchDecode_ok hrun hfault hfetch

end OperandPhase

/-! ### HLT, LDI and PRN by their rules (R90 to R92) -/

/-- Settles O45: HLT clears `run` and stays on itself, so the next step is the stop, and Start brings back the state that
executes the same HLT. -/
theorem hltStepsByItsRule : Obligations.HltStepsByItsRule := by
  intro s ⟨hrun, hfault⟩ hop
  have hstep := step_hlt hrun hfault hop
  exact ⟨hstep, step_of_not_running hfault rfl, step_start_after_hlt hstep hop⟩

/-- Settles O46: the operand phase, then LDI's own checks in the state with `ir` latched. -/
theorem ldiStepsByItsRule : Obligations.LdiStepsByItsRule := by
  rintro s a b ⟨hrun, hfault⟩ hop rfl rfl
  have hd : decodeOpcode (byteAtPc s 0) = some ⟨.ldi, .direct, 2, .f2i⟩ := by rw [hop]; rfl
  rw [step_of_count_two hrun hfault hd rfl, ← hop]
  congr 1
  exact execLdi_eq (latchIr s (byteAtPc s 0)) (byteAtPc s 1) (byteAtPc s 2)

/-- Settles O47: the operand phase, then PRN's own checks in the state with `ir` latched. -/
theorem prnStepsByItsRule : Obligations.PrnStepsByItsRule := by
  rintro s a ⟨hrun, hfault⟩ hop rfl
  have hd : decodeOpcode (byteAtPc s 0) = some ⟨.prn, .direct, 1, .f1⟩ := by rw [hop]; rfl
  rw [step_of_count_one hrun hfault hd rfl, ← hop]
  congr 1
  exact execPrn_eq (latchIr s (byteAtPc s 0)) (byteAtPc s 1)

end Sys2Proof.Machine

namespace Sys2Proof.Machine

open Sys2Proof.Safety

/-! ### PUSH and POP by their rules (R100 to R102) -/

section StackChecks

variable (s : State)

/-- The check of `x[7] - 1`: raise, or go on with the slot. -/
theorem checked_decSp (k : Byte → Result) :
    checked (decSp s) s k =
      if (readSp s).toNat = 0 then .next (recordFault s (.addressOutOfRange (-1))) else k (readSp s - 1) := by
  by_cases hsp : (readSp s).toNat = 0
  · rw [if_pos hsp, decSp_error s hsp, checked_error]
  · rw [if_neg hsp, decSp_ok s hsp, checked_ok]

/-- The check of the stack pointer POP increments: raise, or go on with the sum. -/
theorem checked_incSp (v : Byte) (k : Byte → Result) :
    checked (incSp v) s k =
      if v.toNat + 1 > 255 then .next (recordFault s (.addressOutOfRange 256)) else k (v + 1) := by
  by_cases hv : v.toNat + 1 > 255
  · have hmax : v.toNat = 255 := by have := v.isLt; omega
    rw [if_pos hv, incSp_error v hmax, checked_error]
  · have hlt : v.toNat ≠ 255 := by omega
    rw [if_neg hv, incSp_ok v hlt, checked_ok]

theorem execPush_eq (a : Byte) :
    execPush a s =
      if ha : a.toNat < 8 then
        if (readSp s).toNat = 0 then .next (recordFault s (.addressOutOfRange (-1)))
        else if s.pc.toNat + 2 > 255 then .next (recordFault s (.addressOutOfRange (s.pc.toNat + 2)))
        else .next (setPc
          (setMem (writeSp s (readSp s - 1)) (Memory.write s.mem (readSp s - 1).toNat
            (if a = 7 then readSp s - 1 else readReg s ⟨a.toNat, ha⟩)))
          (s.pc + 2))
      else .next (recordFault s (.registerIndexOutOfRange a)) := by
  simp only [execPush, checked_regidx, checked_decSp, checked_nextPc, memWrite_byte, checked_ok,
    readReg_index_writeSp]
  rfl

theorem execPop_eq (a : Byte) :
    execPop a s =
      if ha : a.toNat < 8 then
        if (if a = 7 then Memory.read s.mem (readSp s).toNat else readSp s).toNat + 1 > 255 then
          .next (recordFault s (.addressOutOfRange 256))
        else if s.pc.toNat + 2 > 255 then .next (recordFault s (.addressOutOfRange (s.pc.toNat + 2)))
        else .next (setPc
          (writeSp (writeReg s ⟨a.toNat, ha⟩ (Memory.read s.mem (readSp s).toNat))
            ((if a = 7 then Memory.read s.mem (readSp s).toNat else readSp s) + 1))
          (s.pc + 2))
      else .next (recordFault s (.registerIndexOutOfRange a)) := by
  simp only [execPop, checked_regidx, memRead_byte, checked_ok, popPointer_index, checked_incSp, checked_nextPc]
  rfl

end StackChecks

/-- Settles O48: the operand phase, then PUSH's own checks in the state with `ir` latched. -/
theorem pushStepsByItsRule : Obligations.PushStepsByItsRule := by
  rintro s a ⟨hrun, hfault⟩ hop rfl
  have hd : decodeOpcode (byteAtPc s 0) = some ⟨.push, .direct, 1, .f1⟩ := by rw [hop]; rfl
  rw [step_of_count_one hrun hfault hd rfl, ← hop]
  congr 1
  exact execPush_eq (latchIr s (byteAtPc s 0)) (byteAtPc s 1)

/-- Settles O49: the operand phase, then POP's own checks in the state with `ir` latched. -/
theorem popStepsByItsRule : Obligations.PopStepsByItsRule := by
  rintro s a v ⟨hrun, hfault⟩ hop rfl rfl
  have hd : decodeOpcode (byteAtPc s 0) = some ⟨.pop, .direct, 1, .f1⟩ := by rw [hop]; rfl
  rw [step_of_count_one hrun hfault hd rfl, ← hop]
  congr 1
  exact execPop_eq (latchIr s (byteAtPc s 0)) (byteAtPc s 1)

end Sys2Proof.Machine

namespace Sys2Proof.Machine

open Sys2Proof.Safety

/-! ### RET, JEQ, JNE and JMP by their rules (R111 to R114) -/

section ControlChecks

variable (s : State)

/-- The check of the flags: raise while they are undefined, or go on with the Equal bit. -/
theorem checked_readEqual (k : Bool → Result) :
    checked (readEqual s) s k =
      if s.flv = false then .next (recordFault s .undefinedFlagsRead) else k (s.fl.getLsbD 0) := by
  cases hv : s.flv with
  | false => rw [if_pos rfl, readEqual_error s hv, checked_error]
  | true => rw [readEqual_ok s hv, checked_ok, if_neg (show ¬ true = false from nofun)]

/-- The address RET reads is a byte, so its one check passes. -/
theorem execRet_eq : execRet s = .next (setPc s (Memory.read s.mem (readSp s).toNat)) := by
  rw [execRet, memRead_byte, checked_ok]

theorem execJmp_eq (a : Byte) :
    execJmp a s =
      if ha : a.toNat < 8 then .next (setPc s (readReg s ⟨a.toNat, ha⟩))
      else .next (recordFault s (.registerIndexOutOfRange a)) :=
  checked_regidx s a _

theorem jumpWhenEqualIs_eq (taken : Bool) (a : Byte) :
    jumpWhenEqualIs taken a s =
      if ha : a.toNat < 8 then
        if s.flv = false then .next (recordFault s .undefinedFlagsRead)
        else if s.fl.getLsbD 0 = taken then .next (setPc s (readReg s ⟨a.toNat, ha⟩))
        else if s.pc.toNat + 2 > 255 then .next (recordFault s (.addressOutOfRange (s.pc.toNat + 2)))
        else .next (setPc s (s.pc + 2))
      else .next (recordFault s (.registerIndexOutOfRange a)) := by
  simp only [jumpWhenEqualIs, checked_regidx, checked_readEqual, checked_nextPc]
  rfl

end ControlChecks

/-- Settles O51: RET has no operand byte to fetch, and its read of the cell at `x[7]` never faults. -/
theorem retStepsByItsRule : Obligations.RetStepsByItsRule := by
  intro s ⟨hrun, hfault⟩ hop
  have hd : decodeOpcode (byteAtPc s 0) = some ⟨.ret, .direct, 0, .f0⟩ := by rw [hop]; rfl
  rw [step_of_fetchDecode_ok hrun hfault (fetchDecode_count_zero s hd rfl), hop]
  exact execRet_eq (latchIr s 0x11)

/-- Settles O52: the operand phase, then the checks of a conditional jump that is taken when E is set, in the state with `ir`
latched. -/
theorem jeqStepsByItsRule : Obligations.JeqStepsByItsRule := by
  rintro s a ⟨hrun, hfault⟩ hop rfl
  have hd : decodeOpcode (byteAtPc s 0) = some ⟨.jeq, .direct, 1, .f1⟩ := by rw [hop]; rfl
  rw [step_of_count_one hrun hfault hd rfl, ← hop]
  congr 1
  exact jumpWhenEqualIs_eq (latchIr s (byteAtPc s 0)) true (byteAtPc s 1)

/-- Settles O53: the operand phase, then the checks of a conditional jump that is taken when E is clear, in the state with
`ir` latched. -/
theorem jneStepsByItsRule : Obligations.JneStepsByItsRule := by
  rintro s a ⟨hrun, hfault⟩ hop rfl
  have hd : decodeOpcode (byteAtPc s 0) = some ⟨.jne, .direct, 1, .f1⟩ := by rw [hop]; rfl
  rw [step_of_count_one hrun hfault hd rfl, ← hop]
  congr 1
  exact jumpWhenEqualIs_eq (latchIr s (byteAtPc s 0)) false (byteAtPc s 1)

/-- Settles O54: the operand phase, then JMP's one check, in the state with `ir` latched; the flags take no part. -/
theorem jmpStepsByItsRule : Obligations.JmpStepsByItsRule := by
  rintro s a ⟨hrun, hfault⟩ hop rfl
  have hd : decodeOpcode (byteAtPc s 0) = some ⟨.jmp, .direct, 1, .f1⟩ := by rw [hop]; rfl
  rw [step_of_count_one hrun hfault hd rfl, ← hop]
  congr 1
  exact execJmp_eq (latchIr s (byteAtPc s 0)) (byteAtPc s 1)

end Sys2Proof.Machine

namespace Sys2Proof.Machine

open Sys2Proof.Safety

/-! ### ADD, MUL and CMP by their rules (R125 to R128) -/

section AluRules

/-- The checks the three ALU operations share, in their order: register `a`, register `b`, `pc + 3`. -/
theorem aluOperation_eq (write : State → Fin 8 → Byte → Byte → State) (a b : Byte) (s : State) :
    aluOperation write a b s =
      if ha : a.toNat < 8 then
        if hb : b.toNat < 8 then
          if s.pc.toNat + 3 > 255 then .next (recordFault s (.addressOutOfRange (s.pc.toNat + 3)))
          else .next (setPc
            (write s ⟨a.toNat, ha⟩ (readReg s ⟨a.toNat, ha⟩) (readReg s ⟨b.toNat, hb⟩)) (s.pc + 3))
        else .next (recordFault s (.registerIndexOutOfRange b))
      else .next (recordFault s (.registerIndexOutOfRange a)) := by
  simp only [aluOperation, checked_regidx, checked_nextPc]
  rfl

variable {u v : Byte}

theorem compareFlags_of_eq (h : u.toNat = v.toNat) : compareFlags u v = 1 := if_pos h

theorem compareFlags_of_gt (h : u.toNat > v.toNat) : compareFlags u v = 2 :=
  (if_neg (Nat.ne_of_gt h)).trans (if_pos h)

theorem compareFlags_of_lt (h : u.toNat < v.toNat) : compareFlags u v = 4 :=
  (if_neg (Nat.ne_of_lt h)).trans (if_neg (Nat.lt_asymm h))

/-- The flags byte as R128 words it: equality of the bytes, then the unsigned order. -/
theorem compareFlags_eq (u v : Byte) :
    compareFlags u v = if u = v then 1 else if v.toNat < u.toNat then 2 else 4 := by
  rcases Nat.lt_trichotomy u.toNat v.toNat with h | h | h
  · have hne : u ≠ v := fun e => Nat.ne_of_lt h (congrArg BitVec.toNat e)
    rw [compareFlags_of_lt h, if_neg hne, if_neg (Nat.lt_asymm h)]
  · rw [compareFlags_of_eq h, if_pos (BitVec.eq_of_toNat_eq h)]
  · have hne : u ≠ v := fun e => Nat.ne_of_gt h (congrArg BitVec.toNat e)
    rw [compareFlags_of_gt h, if_neg hne, if_pos h]

end AluRules

/-- A running step on an ALU opcode: the operand phase, the shared checks, then the operation's one write in the state with
`ir` latched (R82, R125). -/
theorem step_of_alu {s : State} {d : OpEntry} (write : State → Fin 8 → Byte → Byte → State) (hrun : s.run = true)
    (hfault : s.fault = none) (hd : decodeOpcode (byteAtPc s 0) = some d) (hn : d.operandCount = 2)
    (hexec : ∀ a b t, exec (buildInstr d.mnemonic a b) t = aluOperation write a b t) :
    step s =
      if s.pc.toNat + 2 > 255 then faultsWith s (.addressOutOfRange 256)
      else if ha : (byteAtPc s 1).toNat < 8 then
        if hb : (byteAtPc s 2).toNat < 8 then
          if s.pc.toNat + 3 > 255 then faultsWith s (.addressOutOfRange (s.pc.toNat + 3))
          else .next (setPc
            (write (latchIr s (byteAtPc s 0)) ⟨_, ha⟩ (readReg s ⟨_, ha⟩) (readReg s ⟨_, hb⟩)) (s.pc + 3))
        else faultsWith s (.registerIndexOutOfRange (byteAtPc s 2))
      else faultsWith s (.registerIndexOutOfRange (byteAtPc s 1)) := by
  rw [step_of_count_two hrun hfault hd hn, hexec, aluOperation_eq]
  rfl

/-- Settles O55: the ALU step whose write is the sum, in register `a`. -/
theorem addStepsByItsRule : Obligations.AddStepsByItsRule := by
  rintro s a b ⟨hrun, hfault⟩ hop rfl rfl
  have hd : decodeOpcode (byteAtPc s 0) = some ⟨.add, .alu, 2, .f2r⟩ := by rw [hop]; rfl
  rw [step_of_alu (fun t ra u v => writeReg t ra (aluAdd u v)) hrun hfault hd rfl (fun _ _ _ => rfl), hop]
  rfl

/-- Settles O56: the ALU step whose write is the low byte of the product, in register `a`. -/
theorem mulStepsByItsRule : Obligations.MulStepsByItsRule := by
  rintro s a b ⟨hrun, hfault⟩ hop rfl rfl
  have hd : decodeOpcode (byteAtPc s 0) = some ⟨.mul, .alu, 2, .f2r⟩ := by rw [hop]; rfl
  rw [step_of_alu (fun t ra u v => writeReg t ra (aluMul u v)) hrun hfault hd rfl (fun _ _ _ => rfl), hop]
  rfl

/-- Settles O57: the ALU step whose write is the flags byte, which `compareFlags_eq` puts in R128's words. -/
theorem cmpStepsByItsRule : Obligations.CmpStepsByItsRule := by
  rintro s a b ⟨hrun, hfault⟩ hop rfl rfl
  have hd : decodeOpcode (byteAtPc s 0) = some ⟨.cmp, .alu, 2, .f2r⟩ := by rw [hop]; rfl
  rw [step_of_alu (fun t _ u v => setFlags t (compareFlags u v)) hrun hfault hd rfl (fun _ _ _ => rfl), hop]
  simp only [compareFlags_eq]
  rfl

/-! ### The outcome table of CMP (R131) -/

section OutcomeTable

variable {s : State} {a b c : Byte}

theorem execCmp_completes (ha : a.toNat < 8) (hb : b.toNat < 8) (hp : s.pc.toNat + 3 ≤ 255) :
    execCmp a b s =
      .next (setPc (setFlags s (compareFlags (readReg s ⟨a.toNat, ha⟩) (readReg s ⟨b.toNat, hb⟩))) (s.pc + 3)) := by
  rw [execCmp, aluOperation_eq, dif_pos ha, dif_pos hb, if_neg (Nat.not_lt.mpr hp)]

theorem jumpWhenEqualIs_taken {taken : Bool} (hc : c.toNat < 8) (hv : s.flv = true)
    (he : s.fl.getLsbD 0 = taken) :
    jumpWhenEqualIs taken c s = .next (setPc s (readReg s ⟨c.toNat, hc⟩)) := by
  rw [jumpWhenEqualIs_eq, dif_pos hc, if_neg (ne_false_of_eq_true hv), if_pos he]

theorem jumpWhenEqualIs_not_taken {taken : Bool} (hc : c.toNat < 8) (hv : s.flv = true)
    (he : s.fl.getLsbD 0 ≠ taken) (hp : s.pc.toNat + 2 ≤ 255) :
    jumpWhenEqualIs taken c s = .next (setPc s (s.pc + 2)) := by
  rw [jumpWhenEqualIs_eq, dif_pos hc, if_neg (ne_false_of_eq_true hv), if_neg he, if_neg (Nat.not_lt.mpr hp)]

/-- With E set, JEQ jumps and JNE falls through. -/
theorem exec_jeq_jne_of_equal (hc : c.toNat < 8) (hv : s.flv = true) (hp : s.pc.toNat + 2 ≤ 255)
    (he : s.fl.getLsbD 0 = true) :
    exec (.jeq c) s = .next (setPc s (readReg s ⟨c.toNat, hc⟩)) ∧ exec (.jne c) s = .next (setPc s (s.pc + 2)) :=
  ⟨jumpWhenEqualIs_taken hc hv he, jumpWhenEqualIs_not_taken hc hv (ne_false_of_eq_true he) hp⟩

/-- With E clear, JEQ falls through and JNE jumps. -/
theorem exec_jeq_jne_of_not_equal (hc : c.toNat < 8) (hv : s.flv = true) (hp : s.pc.toNat + 2 ≤ 255)
    (he : s.fl.getLsbD 0 = false) :
    exec (.jeq c) s = .next (setPc s (s.pc + 2)) ∧ exec (.jne c) s = .next (setPc s (readReg s ⟨c.toNat, hc⟩)) :=
  ⟨jumpWhenEqualIs_not_taken hc hv (ne_true_of_eq_false he) hp, jumpWhenEqualIs_taken hc hv he⟩

end OutcomeTable

/-- Settles O60: CMP completes with the flags byte of its row, whose bit 0 decides the two jumps. -/
theorem cmpOutcomeTable : Obligations.CmpOutcomeTable := by
  intro s a b c ha hb hc hp
  refine ⟨_, execCmp_completes ha hb (by omega), ?_⟩
  have hpc : (s.pc + 3).toNat + 2 ≤ 255 := by bv_omega
  refine ⟨fun h => ?_, fun h => ?_, fun h => ?_⟩
  · have hfl := compareFlags_of_eq h
    exact ⟨hfl, exec_jeq_jne_of_equal hc rfl hpc (congrArg (BitVec.getLsbD · 0) hfl)⟩
  · have hfl := compareFlags_of_gt h
    exact ⟨hfl, exec_jeq_jne_of_not_equal hc rfl hpc (congrArg (BitVec.getLsbD · 0) hfl)⟩
  · have hfl := compareFlags_of_lt h
    exact ⟨hfl, exec_jeq_jne_of_not_equal hc rfl hpc (congrArg (BitVec.getLsbD · 0) hfl)⟩

end Sys2Proof.Machine

namespace Sys2Proof.Machine

open Sys2Proof.Safety

/-! ### A fault is precise (R140, R149) -/

/-- A step that leaves a fault recorded did not complete, so it raised: `t` is the state it found with `ir` latched and the
fault recorded (decision D3). -/
theorem eq_of_step_of_fault_eq_some {s t : State} {k : FaultKind} (h : step s = .next t) (ht : t.fault = some k) :
    t = { s with ir := byteAtPc s 0, fault := some k } := by
  rcases step_completes_or_raises h with hnone | ⟨f, hraise⟩
  · rw [hnone] at ht
    cases ht
  · rw [h, faultsWith] at hraise
    cases hraise
    cases ht
    rfl

/-- Settles O10: the step raised, and `step` looks at the recorded fault first (decision D2). -/
theorem faultsArePreciseAndFinal : Obligations.FaultsArePreciseAndFinal :=
  fun _ _ _ h ht => ⟨eq_of_step_of_fault_eq_some h ht, step_of_fault ht⟩

end Sys2Proof.Machine

namespace Sys2Proof.Machine

/-! ### Load (R172) -/

section Load

variable {s : State} {image : List Byte}

theorem applyEvent_load_of_idle (h : Idle s) (hfits : image.length ≤ Config.memSize) :
    applyEvent (.load image) s = setMem s (Memory.place s.mem Config.pcReset.toNat image) := if_pos ⟨h, hfits⟩

theorem applyEvent_load_of_too_long (h : Config.memSize < image.length) : applyEvent (.load image) s = s :=
  if_neg fun ⟨_, hfits⟩ => Nat.not_le.mpr h hfits

theorem applyEvent_load_of_not_idle (h : ¬ Idle s) : applyEvent (.load image) s = s :=
  if_neg fun ⟨hidle, _⟩ => h hidle

theorem not_idle_of_running_or_faulted (h : s.run = true ∨ s.fault ≠ none) : ¬ Idle s := by
  rintro ⟨hrun, hfault⟩
  rcases h with h | h
  · exact ne_true_of_eq_false hrun h
  · exact h hfault

/-- The load address is cell 0, so no cell lies below the image. -/
theorem Memory.read_place_pcReset {m : Memory} (hm : Memory.wf m) {k : Nat} (hk : k < Config.memSize) :
    Memory.read (Memory.place m Config.pcReset.toNat image) k = image.getD k (Memory.read m k) :=
  (Memory.read_place image m hm 0 k hk).trans (if_pos (Nat.zero_le k))

end Load

/-- Settles O15: an accepted Load places the image at cell 0 and replaces the memory only; Load is refused when the image
does not fit or the machine is not idle (decision D17). -/
theorem loadPlacesTheImageAtZero : Obligations.LoadPlacesTheImageAtZero := by
  refine ⟨fun s image hm hrun hfault hfits => ?_, fun _ _ hlong => applyEvent_load_of_too_long hlong,
    fun _ _ h => applyEvent_load_of_not_idle (not_idle_of_running_or_faulted h)⟩
  exact ⟨_, applyEvent_load_of_idle ⟨hrun, hfault⟩ hfits, Memory.wf_place image s.mem hm _,
    fun _ hk => Memory.read_place_pcReset hm hk⟩

end Sys2Proof.Machine

namespace Sys2Proof

/-! ### Decode and encode (R50, R51, R53) -/

/-- An instruction's operand bytes are as many of `a`, `b` as its row's operand count says (R51). -/
theorem operandBytes_buildInstr {op : Byte} {d : OpEntry} (h : decodeOpcode op = some d) (a b : Byte) :
    operandBytes (buildInstr d.mnemonic a b) = [a, b].take d.operandCount := by
  have hall : ∀ row ∈ opcodeTable,
      operandBytes (buildInstr row.2.mnemonic a b) = [a, b].take row.2.operandCount := by
    simp only [opcodeTable, List.forall_mem_cons]
    exact ⟨rfl, rfl, rfl, rfl, rfl, rfl, rfl, rfl, rfl, rfl, rfl, rfl, rfl, nofun⟩
  exact hall _ (decodeOpcode_mem h)

/-- What the operand phase took stands, `a` before `b`, in front of what it left (R75). -/
theorem eq_append_of_takeOperands {n : Nat} {bs rest : List Byte} {a b : Byte}
    (h : takeOperands n bs = .ok (a, b, rest)) : bs = [a, b].take n ++ rest := by
  unfold takeOperands at h
  split at h <;> cases h <;> simp

/-- An accepted byte string begins with the encoding of the instruction it decodes to. -/
theorem eq_encode_append_of_decode {bs rest : List Byte} {i : Instr} (h : decode bs = .ok (i, rest)) :
    bs = encode i ++ rest := by
  cases bs with
  | nil => cases h
  | cons op operands =>
    cases hd : decodeOpcode op with
    | none => rw [decode_unknown operands hd] at h; cases h
    | some d =>
      rw [decode_known operands hd] at h
      cases ho : takeOperands d.operandCount operands with
      | error e => rw [ho] at h; cases h
      | ok o =>
        obtain ⟨a, b, left⟩ := o
        rw [ho] at h
        cases h
        rw [encode, Machine.mnemonic_buildInstr, operandBytes_buildInstr hd, ← eq_opcodeOf_of_decodeOpcode hd,
          List.cons_append, ← eq_append_of_takeOperands ho]

theorem takeOperands_one (a : Byte) (rest : List Byte) : takeOperands 1 (a :: rest) = .ok (a, 0, rest) := by
  cases rest <;> rfl

theorem takeOperands_two (a b : Byte) (rest : List Byte) : takeOperands 2 (a :: b :: rest) = .ok (a, b, rest) := rfl

/-- An encoding is decoded to its instruction if the row found takes the instruction's operand bytes. -/
theorem decode_encode_append_of_row {i : Instr} {d : OpEntry} {a b : Byte} (rest : List Byte)
    (hd : decodeOpcode (opcodeOf i.mnemonic) = some d)
    (ho : takeOperands d.operandCount (operandBytes i ++ rest) = .ok (a, b, rest))
    (hi : buildInstr d.mnemonic a b = i) : decode (encode i ++ rest) = .ok (i, rest) := by
  rw [encode, List.cons_append, decode_known _ hd, ho]
  exact congrArg (fun j => Except.ok (j, rest)) hi

/-- The row of each instruction takes exactly its operand bytes, whatever follows. -/
theorem decode_encode_append (i : Instr) (rest : List Byte) : decode (encode i ++ rest) = .ok (i, rest) := by
  cases i with
  | hlt | ret => exact decode_encode_append_of_row rest rfl rfl rfl
  | prn a | push a | pop a | call a | jeq a | jne a | jmp a =>
    exact decode_encode_append_of_row rest rfl (takeOperands_one a rest) rfl
  | ldi a b | add a b | mul a b | cmp a b =>
    exact decode_encode_append_of_row rest rfl (takeOperands_two a b rest) rfl

/-- Settles O1: an accepted string is an encoding, by the look-up and the operand phase; every encoding is accepted, row by
row. -/
theorem decodeAcceptsExactlyTheEncodings : Obligations.DecodeAcceptsExactlyTheEncodings := by
  refine fun bs i rest => ⟨eq_encode_append_of_decode, ?_⟩
  rintro rfl
  exact decode_encode_append i rest

/-- Settles O3: the rows, and their audit by inspection of the 13. -/
theorem opcodeTableHasTheThirteenRows : Obligations.OpcodeTableHasTheThirteenRows :=
  ⟨rfl, by decide, by decide⟩

/-- Settles O4: each word is decoded as it stands. -/
theorem writtenOutWordsDecode : Obligations.WrittenOutWordsDecode :=
  ⟨rfl, rfl, rfl, rfl, rfl, rfl, rfl⟩

end Sys2Proof

namespace Sys2Proof.Machine

/-! ### What each instruction completes with (R90 to R128) -/

/-- A stack pointer that is not 0 passes the check of its decrement. -/
theorem toNat_readSp_ne_zero {s : State} (h : s.x[7] ≠ 0) : (readSp s).toNat ≠ 0 :=
  fun h0 => h (BitVec.eq_of_toNat_eq h0)

section ChecksPass

variable (s : State) {a b : Byte} (ha : a.toNat < 8)
include ha

theorem execLdi_completes (hp : s.pc.toNat + 3 ≤ 255) :
    execLdi a b s = .next (setPc (writeReg s ⟨a.toNat, ha⟩ b) (s.pc + 3)) := by
  rw [execLdi_eq, dif_pos ha, if_neg (Nat.not_lt.mpr hp)]

theorem execPrn_completes (hp : s.pc.toNat + 2 ≤ 255) :
    execPrn a s = .next (setPc (emit s (readReg s ⟨a.toNat, ha⟩)) (s.pc + 2)) := by
  rw [execPrn_eq, dif_pos ha, if_neg (Nat.not_lt.mpr hp)]

theorem execPush_completes (hsp : (readSp s).toNat ≠ 0) (hp : s.pc.toNat + 2 ≤ 255) :
    execPush a s = .next (setPc
      (setMem (writeSp s (readSp s - 1)) (Memory.write s.mem (readSp s - 1).toNat
        (if a = 7 then readSp s - 1 else readReg s ⟨a.toNat, ha⟩)))
      (s.pc + 2)) := by
  rw [execPush_eq, dif_pos ha, if_neg hsp, if_neg (Nat.not_lt.mpr hp)]

theorem execPop_completes {v : Byte} (hv : v = Memory.read s.mem (readSp s).toNat)
    (hsp : (if a = 7 then v else readSp s) ≠ 255) (hp : s.pc.toNat + 2 ≤ 255) :
    execPop a s = .next (setPc
      (writeSp (writeReg s ⟨a.toNat, ha⟩ v) ((if a = 7 then v else readSp s) + 1)) (s.pc + 2)) := by
  have hle : ¬ (if a = 7 then v else readSp s).toNat + 1 > 255 := by bv_omega
  subst hv
  rw [execPop_eq, dif_pos ha, if_neg hle, if_neg (Nat.not_lt.mpr hp)]

end ChecksPass

/-! ### CALL's checks in their order (R110, decision D16) -/

theorem execCall_eq (a : Byte) (s : State) :
    execCall a s =
      if ha : a.toNat < 8 then
        if (readSp s).toNat = 0 then .next (recordFault s (.addressOutOfRange (-1)))
        else if s.pc.toNat + 2 > 255 then .next (recordFault s (.addressOutOfRange (s.pc.toNat + 2)))
        else .next (setPc
          (setMem (writeSp s (readSp s - 1)) (Memory.write s.mem (readSp s - 1).toNat (s.pc + 2)))
          (if a = 7 then readSp s - 1 else readReg s ⟨a.toNat, ha⟩))
      else .next (recordFault s (.registerIndexOutOfRange a)) := by
  simp only [execCall, checked_regidx, checked_decSp, checked_nextPc, memWrite_byte, checked_ok, readReg_setMem,
    readReg_index_writeSp]
  rfl

theorem execCall_completes (s : State) {a : Byte} (ha : a.toNat < 8) (hsp : (readSp s).toNat ≠ 0)
    (hp : s.pc.toNat + 2 ≤ 255) :
    execCall a s = .next (setPc
      (setMem (writeSp s (readSp s - 1)) (Memory.write s.mem (readSp s - 1).toNat (s.pc + 2)))
      (if a = 7 then readSp s - 1 else readReg s ⟨a.toNat, ha⟩)) := by
  rw [execCall_eq, dif_pos ha, if_neg hsp, if_neg (Nat.not_lt.mpr hp)]

/-- Settles O50: the operand phase, then CALL's own checks in the state with `ir` latched. -/
theorem callStepsByItsRule : Obligations.CallStepsByItsRule := by
  rintro s a ⟨hrun, hfault⟩ hop rfl
  have hd : decodeOpcode (byteAtPc s 0) = some ⟨.call, .direct, 1, .f1⟩ := by rw [hop]; rfl
  rw [step_of_count_one hrun hfault hd rfl, ← hop]
  congr 1
  exact execCall_eq (byteAtPc s 1) (latchIr s (byteAtPc s 0))

/-- Settles O32: HLT has no check. -/
theorem hltCompletes : Obligations.HltCompletes := fun _ => rfl

/-- Settles O33: the two checks of LDI pass. -/
theorem ldiCompletes : Obligations.LdiCompletes := fun s _ _ ha hp => execLdi_completes s ha hp

/-- Settles O34: the two checks of PRN pass. -/
theorem prnCompletes : Obligations.PrnCompletes := fun s _ ha hp => execPrn_completes s ha hp

/-- Settles O35: the three checks of PUSH pass. -/
theorem pushCompletes : Obligations.PushCompletes :=
  fun s _ ha hsp hp => execPush_completes s ha (toNat_readSp_ne_zero hsp) hp

/-- Settles O36: the three checks of POP pass. -/
theorem popCompletes : Obligations.PopCompletes := fun s _ _ ha hv hsp hp => execPop_completes s ha hv hsp hp

/-- Settles O37: the three checks of CALL pass. -/
theorem callCompletes : Obligations.CallCompletes :=
  fun s _ ha hsp hp => execCall_completes s ha (toNat_readSp_ne_zero hsp) hp

/-- Settles O38: RET's one check, of the address it reads, always passes. -/
theorem retCompletes : Obligations.RetCompletes := execRet_eq

/-- Settles O39: with defined flags, JEQ is taken on E set and falls through on E clear. -/
theorem jeqCompletes : Obligations.JeqCompletes := by
  intro s a ha hv hp
  cases he : s.fl.getLsbD 0 with
  | true => exact jumpWhenEqualIs_taken ha hv he
  | false => exact jumpWhenEqualIs_not_taken ha hv (ne_true_of_eq_false he) (hp he)

/-- Settles O40: with defined flags, JNE is taken on E clear and falls through on E set. -/
theorem jneCompletes : Obligations.JneCompletes := by
  intro s a ha hv hp
  cases he : s.fl.getLsbD 0 with
  | true => exact jumpWhenEqualIs_not_taken ha hv (ne_false_of_eq_true he) (hp he)
  | false => exact jumpWhenEqualIs_taken ha hv he

/-- Settles O41: JMP checks its register alone. -/
theorem jmpCompletes : Obligations.JmpCompletes := fun s a ha => (execJmp_eq s a).trans (dif_pos ha)

/-- The three checks of an ALU operation pass (R125). -/
theorem aluOperation_completes (write : State → Fin 8 → Byte → Byte → State) (s : State) {a b : Byte}
    (ha : a.toNat < 8) (hb : b.toNat < 8) (hp : s.pc.toNat + 3 ≤ 255) :
    aluOperation write a b s =
      .next (setPc (write s ⟨a.toNat, ha⟩ (readReg s ⟨a.toNat, ha⟩) (readReg s ⟨b.toNat, hb⟩)) (s.pc + 3)) := by
  rw [aluOperation_eq, dif_pos ha, dif_pos hb, if_neg (Nat.not_lt.mpr hp)]

/-- Settles O42: an ALU operation whose write is the sum. -/
theorem addCompletes : Obligations.AddCompletes :=
  fun s _ _ ha hb hp => aluOperation_completes (fun t ra u v => writeReg t ra (aluAdd u v)) s ha hb hp

/-- Settles O43: an ALU operation whose write is the low byte of the product. -/
theorem mulCompletes : Obligations.MulCompletes :=
  fun s _ _ ha hb hp => aluOperation_completes (fun t ra u v => writeReg t ra (aluMul u v)) s ha hb hp

/-- Settles O44: an ALU operation whose write is the flags byte, in R128's words by `compareFlags_eq`. -/
theorem cmpCompletes : Obligations.CmpCompletes := by
  intro s a b ha hb hp
  rw [show exec (.cmp a b) s = _ from execCmp_completes ha hb hp, compareFlags_eq]
  rfl

/-- A POP into a legal register whose pointer is 255 raises before anything is written (decision D5). -/
theorem execPop_of_full_pointer (s : State) {a : Byte} (ha : a.toNat < 8)
    (hsp : (if a = 7 then Memory.read s.mem (readSp s).toNat else readSp s) = 255) :
    execPop a s = .next (recordFault s (.addressOutOfRange 256)) := by
  rw [execPop_eq, dif_pos ha, hsp]
  rfl

/-- Settles O31: after the register check, the check of `x[7] - 1` or of the pointer POP increments fails. -/
theorem stackPointerNeverWraps : Obligations.StackPointerNeverWraps := by
  refine ⟨fun s a ha hsp => ?_, fun s a ha hne hsp => execPop_of_full_pointer s ha ((if_neg hne).trans hsp),
    fun s hv => execPop_of_full_pointer s (by decide) ((if_pos rfl).trans hv)⟩
  have hzero : (readSp s).toNat = 0 := congrArg BitVec.toNat hsp
  exact ⟨(execPush_eq s a).trans ((dif_pos ha).trans (if_pos hzero)),
    (execCall_eq a s).trans ((dif_pos ha).trans (if_pos hzero))⟩

end Sys2Proof.Machine

namespace Sys2Proof.Machine

open Sys2Proof.Safety

/-! ### Everything an instruction can do (R78, R82) -/

/-- The state an instruction completes with, and the checks it passed that a frame or a bound on `pc` needs. A value that
no frame looks at (what is pushed, popped, jumped to, computed) is left open here: the rule of each instruction gives it. -/
inductive Completes (s : State) : Instr → State → Prop
  | hlt : Completes s .hlt (clearRun s)
  | ldi {a b : Byte} (ha : a.toNat < 8) (hp : s.pc.toNat + 3 ≤ 255) :
      Completes s (.ldi a b) (setPc (writeReg s ⟨a.toNat, ha⟩ b) (s.pc + 3))
  | prn {a : Byte} (ha : a.toNat < 8) (hp : s.pc.toNat + 2 ≤ 255) :
      Completes s (.prn a) (setPc (emit s (readReg s ⟨a.toNat, ha⟩)) (s.pc + 2))
  | push {a : Byte} (v : Byte) (hsp : (readSp s).toNat ≠ 0) (hp : s.pc.toNat + 2 ≤ 255) :
      Completes s (.push a)
        (setPc (setMem (writeSp s (readSp s - 1)) (Memory.write s.mem (readSp s - 1).toNat v)) (s.pc + 2))
  | pop {a : Byte} (ha : a.toNat < 8) (v sp : Byte) (hp : s.pc.toNat + 2 ≤ 255) :
      Completes s (.pop a) (setPc (writeSp (writeReg s ⟨a.toNat, ha⟩ v) sp) (s.pc + 2))
  | call {a : Byte} (target : Byte) (hsp : (readSp s).toNat ≠ 0) (hp : s.pc.toNat + 2 ≤ 255) :
      Completes s (.call a)
        (setPc (setMem (writeSp s (readSp s - 1)) (Memory.write s.mem (readSp s - 1).toNat (s.pc + 2))) target)
  | ret (target : Byte) : Completes s .ret (setPc s target)
  | jeqTaken {a : Byte} (target : Byte) (he : s.fl.getLsbD 0 = true) : Completes s (.jeq a) (setPc s target)
  | jeqNext {a : Byte} (hp : s.pc.toNat + 2 ≤ 255) : Completes s (.jeq a) (setPc s (s.pc + 2))
  | jneTaken {a : Byte} (target : Byte) (he : s.fl.getLsbD 0 = false) : Completes s (.jne a) (setPc s target)
  | jneNext {a : Byte} (hp : s.pc.toNat + 2 ≤ 255) : Completes s (.jne a) (setPc s (s.pc + 2))
  | jmp {a : Byte} (target : Byte) : Completes s (.jmp a) (setPc s target)
  | add {a b : Byte} (ha : a.toNat < 8) (v : Byte) (hp : s.pc.toNat + 3 ≤ 255) :
      Completes s (.add a b) (setPc (writeReg s ⟨a.toNat, ha⟩ v) (s.pc + 3))
  | mul {a b : Byte} (ha : a.toNat < 8) (v : Byte) (hp : s.pc.toNat + 3 ≤ 255) :
      Completes s (.mul a b) (setPc (writeReg s ⟨a.toNat, ha⟩ v) (s.pc + 3))
  | cmp {a b : Byte} (u v : Byte) (hp : s.pc.toNat + 3 ≤ 255) :
      Completes s (.cmp a b) (setPc (setFlags s (compareFlags u v)) (s.pc + 3))

/-- The fault of an instruction's first failing check, tied to the instruction (`20_memory.md` R43, R143 to R145, R148). -/
inductive RaiseCause (s : State) (i : Instr) : FaultKind → Prop
  | register {v : Byte} (h : i.regOperands.find? (fun r => decide (8 ≤ r.toNat)) = some v) :
      RaiseCause s i (.registerIndexOutOfRange v)
  | flags (hwf : i.WellFormed) (hv : s.flv = false) (hi : ∃ a, i = .jeq a ∨ i = .jne a) :
      RaiseCause s i .undefinedFlagsRead
  | decrement (hwf : i.WellFormed) (h : DecrementsZeroSp s i) : RaiseCause s i (.addressOutOfRange (-1))
  | increment (hwf : i.WellFormed) (h : IncrementsFullSp s i) : RaiseCause s i (.addressOutOfRange 256)
  | nextAddress (hwf : i.WellFormed) (hu : UsesNextAddress s i) (hp : 255 < s.pc.toNat + (encode i).length) :
      RaiseCause s i (.addressOutOfRange (s.pc.toNat + (encode i).length))

/-- An instruction completes, or records the fault of its first failing check and changes nothing else. -/
def CompletesOrRaises (s : State) (i : Instr) (t : State) : Prop :=
  Completes s i t ∨ ∃ f, t = recordFault s f ∧ RaiseCause s i f

section Inversion

variable {s t u : State} {i : Instr} {f : FaultKind}

/-- Where the only check left is that of the address after the instruction. -/
theorem completesOrRaises_of_nextAddress {n : Nat} (hwf : i.WellFormed) (hu : UsesNextAddress s i)
    (hn : (encode i).length = n) (hc : s.pc.toNat + n ≤ 255 → Completes s i u)
    (h : (if s.pc.toNat + n > 255 then .next (recordFault s (.addressOutOfRange (s.pc.toNat + n))) else .next u) =
      (.next t : Result)) : CompletesOrRaises s i t := by
  subst hn
  split at h
  · next hp => cases h; exact .inr ⟨_, rfl, .nextAddress hwf hu hp⟩
  · next hp => cases h; exact .inl (hc (Nat.not_lt.mp hp))

/-- Where the check before it is of the stack pointer or the flags, and raises `f` under the condition `c`. -/
theorem completesOrRaises_of_check {c : Prop} [Decidable c] {r : Result} (hf : c → RaiseCause s i f)
    (hr : ¬ c → r = .next t → CompletesOrRaises s i t)
    (h : (if c then .next (recordFault s f) else r) = .next t) : CompletesOrRaises s i t := by
  split at h
  · next hc => cases h; exact .inr ⟨f, rfl, hf hc⟩
  · next hc => exact hr hc h

/-- A conditional jump: the flags check, then the jump, or the address after the instruction if it is not taken. -/
theorem completesOrRaises_of_jump {taken : Bool} {a : Byte} (hwf : i.WellFormed) (hi : i = .jeq a ∨ i = .jne a)
    (hu : s.fl.getLsbD 0 ≠ taken → UsesNextAddress s i)
    (htaken : ∀ target, s.fl.getLsbD 0 = taken → Completes s i (setPc s target))
    (hnext : s.pc.toNat + 2 ≤ 255 → Completes s i (setPc s (s.pc + 2)))
    (h : jumpWhenEqualIs taken a s = .next t) : CompletesOrRaises s i t := by
  have ha : a.toNat < 8 := by rcases hi with rfl | rfl <;> exact hwf a (.head _)
  have hlen : (encode i).length = 2 := by rcases hi with rfl | rfl <;> rfl
  rw [jumpWhenEqualIs_eq, dif_pos ha] at h
  refine completesOrRaises_of_check (fun hv => .flags hwf hv ⟨a, hi⟩) (fun _ h => ?_) h
  split at h
  · next he => cases h; exact .inl (htaken _ he)
  · next he => exact completesOrRaises_of_nextAddress hwf (hu he) hlen hnext h

/-- An ALU operation: with both registers legal, the address after the instruction is the one check. -/
theorem completesOrRaises_of_alu {write : State → Fin 8 → Byte → Byte → State} {a b : Byte} (hwf : i.WellFormed)
    (hops : i.regOperands = [a, b]) (hu : UsesNextAddress s i) (hlen : (encode i).length = 3)
    (hc : ∀ (ha : a.toNat < 8) (u v : Byte), s.pc.toNat + 3 ≤ 255 →
      Completes s i (setPc (write s ⟨a.toNat, ha⟩ u v) (s.pc + 3)))
    (h : aluOperation write a b s = .next t) : CompletesOrRaises s i t := by
  have ha : a.toNat < 8 := hwf a (hops ▸ .head _)
  have hb : b.toNat < 8 := hwf b (hops ▸ .tail _ (.head _))
  rw [aluOperation_eq, dif_pos ha, dif_pos hb] at h
  exact completesOrRaises_of_nextAddress hwf hu hlen (hc ha _ _) h

/-- With legal register operands the checks left are those of the flags, the stack pointer and the next address. -/
theorem exec_next_of_wellFormed (hwf : i.WellFormed) (h : exec i s = .next t) : CompletesOrRaises s i t := by
  cases i with
  | hlt => cases h; exact .inl .hlt
  | ldi a b =>
    have ha : a.toNat < 8 := hwf a (.head _)
    rw [exec, execLdi_eq, dif_pos ha] at h
    exact completesOrRaises_of_nextAddress hwf trivial rfl (.ldi ha) h
  | prn a =>
    have ha : a.toNat < 8 := hwf a (.head _)
    rw [exec, execPrn_eq, dif_pos ha] at h
    exact completesOrRaises_of_nextAddress hwf trivial rfl (.prn ha) h
  | push a =>
    have ha : a.toNat < 8 := hwf a (.head _)
    rw [exec, execPush_eq, dif_pos ha] at h
    exact completesOrRaises_of_check (fun h0 => .decrement hwf ⟨⟨a, .inl rfl⟩, BitVec.eq_of_toNat_eq h0⟩)
      (fun hsp => completesOrRaises_of_nextAddress hwf trivial rfl (.push _ hsp)) h
  | pop a =>
    have ha : a.toNat < 8 := hwf a (.head _)
    rw [exec, execPop_eq, dif_pos ha] at h
    refine completesOrRaises_of_check (fun hfull => .increment hwf ⟨a, rfl, ?_⟩)
      (fun _ => completesOrRaises_of_nextAddress hwf trivial rfl (.pop ha _ _)) h
    bv_omega
  | call a =>
    have ha : a.toNat < 8 := hwf a (.head _)
    rw [exec, execCall_eq, dif_pos ha] at h
    exact completesOrRaises_of_check (fun h0 => .decrement hwf ⟨⟨a, .inr rfl⟩, BitVec.eq_of_toNat_eq h0⟩)
      (fun hsp => completesOrRaises_of_nextAddress hwf trivial rfl (.call _ hsp)) h
  | ret =>
    rw [execRet_next s t h]
    exact .inl (.ret _)
  | jeq a => exact completesOrRaises_of_jump hwf (.inl rfl) eq_false_of_ne_true .jeqTaken .jeqNext h
  | jne a => exact completesOrRaises_of_jump hwf (.inr rfl) eq_true_of_ne_false .jneTaken .jneNext h
  | jmp a =>
    have ha : a.toNat < 8 := hwf a (.head _)
    rw [exec, execJmp_eq, dif_pos ha] at h
    cases h
    exact .inl (.jmp _)
  | add a b =>
    rw [exec, execAdd] at h
    exact completesOrRaises_of_alu hwf rfl trivial rfl (fun ha _ _ => .add ha _) h
  | mul a b =>
    rw [exec, execMul] at h
    exact completesOrRaises_of_alu hwf rfl trivial rfl (fun ha _ _ => .mul ha _) h
  | cmp a b =>
    rw [exec, execCmp] at h
    exact completesOrRaises_of_alu hwf rfl trivial rfl (fun _ _ _ => .cmp _ _) h

theorem wellFormed_or_first_bad_register (i : Instr) :
    i.WellFormed ∨ ∃ v, i.regOperands.find? (fun r => decide (8 ≤ r.toNat)) = some v := by
  cases hv : i.regOperands.find? (fun r => decide (8 ≤ r.toNat)) with
  | some v => exact .inr ⟨v, rfl⟩
  | none => exact .inl (by simpa using hv)

/-- Everything an instruction can do: an ill-formed one raises in its register check, before every other. -/
theorem exec_next (h : exec i s = .next t) : CompletesOrRaises s i t := by
  rcases wellFormed_or_first_bad_register i with hwf | ⟨v, hv⟩
  · exact exec_next_of_wellFormed hwf h
  · rw [exec_of_first_bad_register hv] at h
    cases h
    exact .inr ⟨_, rfl, .register hv⟩

end Inversion

/-! ### What a completed instruction leaves unchanged -/

namespace Completes

variable {s t : State} {i : Instr} (h : Completes s i t)
include h

theorem ir_eq : t.ir = s.ir := by cases h <;> rfl

theorem fault_eq : t.fault = s.fault := by cases h <;> rfl

theorem flags_eq (hi : ∀ a b, i ≠ .cmp a b) : t.fl = s.fl ∧ t.flv = s.flv := by
  cases h with
  | cmp => exact absurd rfl (hi _ _)
  | _ => exact ⟨rfl, rfl⟩

theorem run_eq (hi : i ≠ .hlt) : t.run = s.run := by
  cases h with
  | hlt => exact absurd rfl hi
  | _ => rfl

theorem out_eq (hi : ∀ a, i ≠ .prn a) : t.out = s.out := by
  cases h with
  | prn => exact absurd rfl (hi _)
  | _ => rfl

theorem mem_eq (hi : ¬ Stores i) : t.mem = s.mem := by
  cases h with
  | push | call => exact absurd trivial hi
  | _ => rfl

/-- PUSH and CALL find a slot, and write that one cell. -/
theorem mem_eq_write (hi : Stores i) :
    (readSp s).toNat ≠ 0 ∧ ∃ v, t.mem = Memory.write s.mem (readSp s - 1).toNat v := by
  cases h with
  | push v hsp => exact ⟨hsp, v, rfl⟩
  | call _ hsp => exact ⟨hsp, _, rfl⟩
  | _ => exact hi.elim

theorem readReg_eq {r : Fin 8} (hr : r.val ∉ destRegs i) : readReg t r = readReg s r := by
  cases h with
  | ldi ha | add ha | mul ha =>
    exact readReg_writeReg_other s _ r _ fun e => hr (e ▸ .head _)
  | push | call => exact readReg_writeReg_other s 7 r _ fun e => hr (e ▸ .head _)
  | pop ha v sp =>
    exact (readReg_writeReg_other (writeReg s _ v) 7 r sp fun e => hr (e ▸ .tail _ (.head _))).trans
      (readReg_writeReg_other s _ r v fun e => hr (e ▸ .head _))
  | _ => rfl

theorem wf_mem (hm : Memory.wf s.mem) : Memory.wf t.mem := by
  by_cases hi : Stores i
  · obtain ⟨-, v, hv⟩ := h.mem_eq_write hi
    rw [hv]
    exact Memory.wf_write_byte s.mem hm _ v
  · rw [h.mem_eq hi]
    exact hm

/-- CMP writes one flag (R16), and nothing else writes flags. -/
theorem oneFlag (hf : s.flv = true → OneFlag s.fl) : t.flv = true → OneFlag t.fl := by
  cases h with
  | cmp u v =>
    intro _
    rcases compareFlags_cases u v with ⟨-, hc⟩ | ⟨-, hc⟩ | ⟨-, hc⟩
    · exact .inl hc
    · exact .inr (.inl hc)
    · exact .inr (.inr hc)
  | _ => exact hf

/-- The address after a completed instruction exists where the instruction uses it (R43, R77). -/
theorem nextAddress_le (hu : UsesNextAddress s i) : s.pc.toNat + (encode i).length ≤ 255 := by
  cases h with
  | hlt | ret | jmp => exact hu.elim
  | jeqTaken _ he => exact nomatch he.symm.trans hu
  | jneTaken _ he => exact nomatch he.symm.trans hu
  | jeqNext hp | jneNext hp => exact hp
  | ldi _ hp | prn _ hp | push _ _ hp | pop _ _ _ hp | call _ _ hp | add _ _ hp | mul _ _ hp | cmp _ _ hp => exact hp

end Completes

/-! ### The frames, for all 13 instructions -/

/-- Settles O9: every meaning is a chain of checks that ends in a next state. -/
theorem everyInstructionAnswersANextState : Obligations.EveryInstructionAnswersANextState := exec_total

/-- Settles O21: an instruction that does not store completes with the memory it found, and a fault keeps it too. -/
theorem nonStoringInstructionsKeepMemory : Obligations.NonStoringInstructionsKeepMemory := by
  intro i s t hi h b
  rcases exec_next h with hc | ⟨f, rfl, -⟩
  · rw [hc.mem_eq hi]
  · rfl

/-- Settles O22: the one cell written is the slot `decSp` gives, and a PUSH or CALL that completes has one. -/
theorem pushAndCallStoreOneByte : Obligations.PushAndCallStoreOneByte := by
  intro i a s t hi h
  have hstores : Stores i := by rcases hi with rfl | rfl <;> trivial
  rcases exec_next h with hc | ⟨f, rfl, -⟩
  · obtain ⟨hsp, v, hmem⟩ := hc.mem_eq_write hstores
    rw [hmem]
    refine ⟨fun sp hdec b hb => ?_, fun k hdec => absurd (decSp_eq_error s hdec).1 hsp⟩
    rw [(decSp_eq_ok s hdec).2] at hb
    exact Memory.read_write_other s.mem _ b v hb
  · exact ⟨fun _ _ _ _ => rfl, fun _ _ _ => rfl⟩

/-- Settles O23: a completed instruction writes its destinations alone, and a fault writes no register. -/
theorem registersOutsideTheDestinationsAreKept : Obligations.RegistersOutsideTheDestinationsAreKept := by
  intro i s t r h hr
  rcases exec_next h with hc | ⟨f, rfl, -⟩
  · exact hc.readReg_eq hr
  · rfl

/-- Settles O24: the frame of a completed instruction, element by element; a recorded fault is the one change. -/
theorem otherElementsAreKept : Obligations.OtherElementsAreKept := by
  intro i s t h
  rcases exec_next h with hc | ⟨f, rfl, -⟩
  · exact ⟨hc.ir_eq, hc.flags_eq, hc.run_eq, hc.out_eq, .inl hc.fault_eq⟩
  · exact ⟨rfl, fun _ => ⟨rfl, rfl⟩, fun _ => rfl, fun _ => rfl, .inr ⟨f, rfl⟩⟩

end Sys2Proof.Machine

namespace Sys2Proof.Machine

open Sys2Proof.Safety

/-! ### Fetch: what it needs, and why it fails (R30, R75) -/

theorem Memory.length_cellsFrom_le (m : Memory) (a n : Nat) : (Memory.cellsFrom m a n).length ≤ Config.memSize - a := by
  induction n generalizing a with
  | zero => exact Nat.zero_le _
  | succ n ih =>
    rw [Memory.cellsFrom]
    split
    · have := ih (a + 1)
      rw [List.length_cons]
      omega
    · exact Nat.zero_le _

section Fetch

variable {s : State}

theorem fetchDecode_of_decode {i : Instr} {rest : List Byte}
    (h : decode (Memory.cellsFrom s.mem s.pc.toNat 3) = .ok (i, rest)) : fetchDecode s = .ok i := by
  rw [fetchDecode, h]

/-- Every byte of a fetched instruction lies within memory. -/
theorem operandBytes_fit_of_fetchDecode_ok {i : Instr} (h : fetchDecode s = .ok i) :
    s.pc.toNat + (operandBytes i).length ≤ 255 := by
  unfold fetchDecode at h
  split at h
  · next rest hdec =>
    cases h
    have hle := Memory.length_cellsFrom_le s.mem s.pc.toNat 3
    rw [eq_encode_append_of_decode hdec, List.length_append, encode, List.length_cons, Config.memSize] at hle
    omega
  · cases h

/-- A failed fetch is an unknown opcode or an operand byte beyond 255 (R72, R75). -/
theorem faultCause_of_fetchDecode_error {k : FaultKind} (h : fetchDecode s = .error k) : FaultCause s k := by
  cases hd : decodeOpcode (byteAtPc s 0) with
  | none =>
    rw [fetchDecode_unknown s hd] at h
    cases h
    exact .inl ⟨rfl, hd⟩
  | some d =>
    suffices hb : k = .addressOutOfRange 256 ∧ 255 < s.pc.toNat + d.operandCount from
      .inr (.inl ⟨hb.1, d, hd, hb.2⟩)
    rcases operandCount_cases hd with hn | hn | hn
    · rw [fetchDecode_count_zero s hd hn] at h
      cases h
    · rw [fetchDecode_count_one s hd hn] at h
      split at h
      · next hp => cases h; exact ⟨rfl, by omega⟩
      · cases h
    · rw [fetchDecode_count_two s hd hn] at h
      split at h
      · next hp => cases h; exact ⟨rfl, by omega⟩
      · cases h

end Fetch

/-! ### Why a step records a fault (R43, R140 to R148) -/

/-- Once an instruction's own bytes fit, the address after it can only be beyond memory by being 256 (R143). -/
theorem RaiseCause.execCause {s : State} {i : Instr} {k : FaultKind}
    (hfit : s.pc.toNat + (operandBytes i).length ≤ 255) (h : RaiseCause s i k) : ExecCause s i k := by
  cases h with
  | register hv => exact hv
  | flags hwf hv hi => exact ⟨hwf, hv, hi⟩
  | decrement hwf h0 => exact ⟨hwf, .inl ⟨rfl, h0⟩⟩
  | increment hwf hfull => exact ⟨hwf, .inr ⟨rfl, .inl hfull⟩⟩
  | nextAddress hwf hu hp =>
    have hlen : (encode i).length = (operandBytes i).length + 1 := rfl
    exact ⟨hwf, .inr ⟨by omega, .inr ⟨hu, hp⟩⟩⟩

/-- Everything a step can do: complete the instruction at `pc`, or record a fault that the state explains. -/
theorem step_completes_or_records {s t : State} (h : step s = .next t) :
    s.run = true ∧ s.fault = none ∧
      ((∃ i, fetchDecode s = .ok i ∧ Completes (latchIr s (byteAtPc s 0)) i t) ∨
        ∃ k, t = recordFault (latchIr s (byteAtPc s 0)) k ∧ FaultCause t k) := by
  obtain ⟨hrun, hfault, hcases⟩ := step_next s t h
  refine ⟨hrun, hfault, ?_⟩
  rcases hcases with ⟨i, hd, hexec⟩ | ⟨k, hd, rfl⟩
  · rcases exec_next hexec with hc | ⟨k, rfl, hraise⟩
    · exact .inl ⟨i, hd, hc⟩
    · have hfit := operandBytes_fit_of_fetchDecode_ok hd
      have hcause : ExecCause (latchIr s (byteAtPc s 0)) i k := hraise.execCause hfit
      exact .inr ⟨k, rfl, .inr (.inr ⟨i, hd, hcause⟩)⟩
  · exact .inr ⟨k, rfl, faultCause_of_fetchDecode_error hd⟩

/-- Settles O11: a completed instruction records no fault, and a recorded one is explained. -/
theorem recordedFaultShowsItsCause : Obligations.RecordedFaultShowsItsCause := by
  intro s t k h ht
  obtain ⟨-, hfault, ⟨i, -, hc⟩ | ⟨f, rfl, hcause⟩⟩ := step_completes_or_records h
  · rw [hc.fault_eq, latchIr_fault, hfault] at ht
    cases ht
  · cases ht
    exact hcause

/-! ### The ALU support check (R64, R74) -/

theorem decode_ne_unsupported (bs : List Byte) (op : Byte) : decode bs ≠ .error (.unsupportedALUOperation op) := by
  cases bs with
  | nil => nofun
  | cons first rest =>
    cases hd : decodeOpcode first with
    | none => rw [decode_unknown rest hd]; nofun
    | some d =>
      rw [decode_known rest hd]
      cases ho : takeOperands d.operandCount rest with
      | ok o => nofun
      | error e =>
        obtain ⟨k, rfl⟩ := takeOperands_eq_error ho
        nofun

theorem not_faultCause_unsupported (s : State) (op : Byte) : ¬ FaultCause s (.unsupportedALUOperation op) := by
  rintro (⟨h, -⟩ | ⟨h, -⟩ | ⟨_, -, h⟩)
  · cases h
  · cases h
  · exact h

/-- Settles O6: bit 5 is the class in every row, and the fault has no cause. -/
theorem aluSupportCheckNeverFails : Obligations.AluSupportCheckNeverFails :=
  ⟨fun _ _ hd => isAlu_iff_of_decodeOpcode hd, decode_ne_unsupported,
    fun s t op h ht => not_faultCause_unsupported t op (recordedFaultShowsItsCause s t _ h ht)⟩

/-! ### The invariant -/

theorem inv_of_no_fault {s : State} (hm : Memory.wf s.mem) (hf : s.flv = true → OneFlag s.fl)
    (hfault : s.fault = none) : Inv s :=
  ⟨hm, hf, fun _ hk => nomatch hfault.symm.trans hk⟩

/-- Right after Reset the flags are undefined and no fault is recorded. -/
theorem inv_resetFrom (p : PowerOn) (hm : Memory.wf p.memInit) : Inv (State.resetFrom p) :=
  inv_of_no_fault hm nofun rfl

/-- A step keeps the invariant: a completed instruction keeps memory and flags in form, a recorded fault shows its cause. -/
theorem inv_step {s t : State} (hinv : Inv s) (h : step s = .next t) : Inv t := by
  obtain ⟨hm, hf, -⟩ := hinv
  obtain ⟨hrun, hfault, ⟨i, -, hc⟩ | ⟨k, rfl, hcause⟩⟩ := step_completes_or_records h
  · exact inv_of_no_fault (hc.wf_mem hm) (hc.oneFlag hf) (hc.fault_eq.trans hfault)
  · refine ⟨hm, hf, fun k' hk => ?_⟩
    cases hk
    exact ⟨hrun, rfl, hcause⟩

/-- An event keeps the invariant: Load and Start are accepted only where no fault is recorded. -/
theorem inv_applyEvent {e : Event} {s : State} (hinv : Inv s) (hreset : ∀ p, e = .reset p → Memory.wf p.memInit) :
    Inv (applyEvent e s) := by
  have ⟨hm, hf, _⟩ := hinv
  cases e with
  | reset p => exact inv_resetFrom p (hreset p rfl)
  | load image =>
    rcases applyEvent_load_cases s image with ⟨⟨-, hfault⟩, -, h⟩ | h
    · rw [h]
      exact inv_of_no_fault (Memory.wf_place image s.mem hm _) hf hfault
    · rw [h]
      exact hinv
  | start =>
    rcases applyEvent_start_cases s with ⟨⟨-, hfault⟩, h⟩ | h
    · rw [h]
      exact inv_of_no_fault hm hf hfault
    · rw [h]
      exact hinv

/-- Settles O12: kept by a step that completes, by a step that faults, and by each event. -/
theorem everyStepKeepsInv : Obligations.EveryStepKeepsInv :=
  ⟨fun _ _ hinv h => inv_step hinv h, fun _ _ hinv hreset => inv_applyEvent hinv hreset⟩

/-- Settles O13: for every open value, the model's own choice among them. -/
theorem resetStatesHaveInv : Obligations.ResetStatesHaveInv :=
  ⟨inv_resetFrom, inv_resetFrom PowerOn.zero Memory.wf_nil⟩

/-- Settles O17: Reset is always accepted; Load and Start check what `accepts` says, which no faulted machine meets. -/
theorem unacceptedEventsDoNothing : Obligations.UnacceptedEventsDoNothing := by
  have hrefused : ∀ (e : Event) (s : State), ¬ accepts s e → applyEvent e s = s := by
    intro e s h
    cases e with
    | reset p => exact absurd trivial h
    | load image => exact if_neg h
    | start => exact if_neg h
  refine ⟨hrefused, fun e s hfault hreset => hrefused e s fun hacc => ?_⟩
  cases e with
  | reset p => exact hreset p rfl
  | load image => exact hfault hacc.1.2
  | start => exact hfault hacc.2

/-! ### Which instruction a step executed -/

/-- Settles O7: the instruction decoded is the one fetched, and a running machine executes it. -/
theorem stepRunsTheDecodedInstruction : Obligations.StepRunsTheDecodedInstruction :=
  fun _ _ _ ⟨hrun, hfault⟩ h => step_of_fetchDecode_ok hrun hfault (fetchDecode_of_decode h)

/-- Settles O19: the fetch of a row with `n` operands is given by the bytes up to `pc + n`. -/
theorem unneededOperandBytesAreNotRead : Obligations.UnneededOperandBytesAreNotRead := by
  intro s m d hd hm
  have hbyte : ∀ k, k ≤ d.operandCount → byteAtPc { s with mem := m } k = byteAtPc s k := hm
  have hd' : decodeOpcode (byteAtPc { s with mem := m } 0) = some d := by rw [hbyte 0 (Nat.zero_le _), hd]
  rcases operandCount_cases hd with hn | hn | hn
  · rw [fetchDecode_count_zero s hd hn, fetchDecode_count_zero _ hd' hn]
  · rw [fetchDecode_count_one s hd hn, fetchDecode_count_one _ hd' hn, hbyte 1 (by omega)]
  · rw [fetchDecode_count_two s hd hn, fetchDecode_count_two _ hd' hn, hbyte 1 (by omega), hbyte 2 (by omega)]

/-- Settles O26: HLT clears `run` at any `pc`; any other instruction and every fault leaves the 1 the step found. -/
theorem onlyHltClearsRun : Obligations.OnlyHltClearsRun := by
  intro s t h
  obtain ⟨hrun, hfault, hcases⟩ := step_completes_or_records h
  refine ⟨fun ht => ?_, fun hop => ?_⟩
  · rcases hcases with ⟨i, hd, hc⟩ | ⟨k, rfl, -⟩
    · by_cases hi : i = .hlt
      · rw [byteAtPc_of_fetchDecode_ok hd, hi]
        rfl
      · rw [hc.run_eq hi, latchIr_run, hrun] at ht
        cases ht
    · exact nomatch hrun.symm.trans ht
  · cases h.symm.trans (step_hlt hrun hfault hop)
    rfl

/-- Settles O28: every meaning and every fault keeps the `ir` just latched, and the latch overwrites the old one. -/
theorem instructionRegisterIsTransient : Obligations.InstructionRegisterIsTransient := by
  refine ⟨fun s t h => ?_, fun _ _ => rfl⟩
  obtain ⟨-, -, ⟨i, -, hc⟩ | ⟨k, rfl, -⟩⟩ := step_completes_or_records h
  · exact hc.ir_eq
  · rfl

/-- Settles O29: the bytes of the fetched instruction fit, and so does the address after it where the instruction uses it;
HLT and RET use neither. -/
theorem placementNearTheEndOfMemory : Obligations.PlacementNearTheEndOfMemory := by
  refine ⟨fun s t h ht => ?_, fun s ⟨hrun, hfault⟩ hop => ?_⟩
  · obtain ⟨-, -, ⟨i, hd, hc⟩ | ⟨k, rfl, -⟩⟩ := step_completes_or_records h
    · have hfit := operandBytes_fit_of_fetchDecode_ok hd
      have hnext : UsesNextAddress s i → s.pc.toNat + (encode i).length ≤ 255 := hc.nextAddress_le
      rw [byteAtPc_of_fetchDecode_ok hd]
      cases i <;> dsimp only [Instr.mnemonic, opcodeOf]
      case hlt | ret =>
        refine ⟨?_, ?_, ?_, ?_, ?_⟩ <;> exact fun h => absurd h (by decide)
      case ldi | add | mul | cmp =>
        have hp : s.pc.toNat + 3 ≤ 255 := hnext trivial
        exact ⟨fun _ => by omega, fun _ => by omega, fun _ _ => by omega, fun _ _ => by omega, fun _ => by omega⟩
      case prn | push | pop | call =>
        have hp : s.pc.toNat + 2 ≤ 255 := hnext trivial
        exact ⟨fun h => absurd h (by decide), fun _ => by omega, fun _ _ => by omega, fun _ _ => by omega,
          fun _ => by omega⟩
      case jeq =>
        exact ⟨fun h => absurd h (by decide), fun h => absurd h (by decide),
          fun _ he => Nat.le_of_add_le_add_right (b := 2) (hnext he), fun h => absurd h (by decide),
          fun _ => Nat.le_of_add_le_add_right (b := 1) hfit⟩
      case jne =>
        exact ⟨fun h => absurd h (by decide), fun h => absurd h (by decide), fun h => absurd h (by decide),
          fun _ he => Nat.le_of_add_le_add_right (b := 2) (hnext he),
          fun _ => Nat.le_of_add_le_add_right (b := 1) hfit⟩
      case jmp =>
        exact ⟨fun h => absurd h (by decide), fun h => absurd h (by decide), fun h => absurd h (by decide),
          fun h => absurd h (by decide), fun _ => Nat.le_of_add_le_add_right (b := 1) hfit⟩
    · cases ht
  · rcases hop with hop | hop
    · exact ⟨_, step_hlt hrun hfault hop, hfault⟩
    · exact ⟨_, retStepsByItsRule s ⟨hrun, hfault⟩ hop, hfault⟩

/-! ### The same machine with an earlier output (R22) -/

/-- `s` as it would be had PRN emitted `p` before everything in `out`. -/
def prependOut (p : List Byte) (s : State) : State := { s with out := p ++ s.out }

section PrependOut

variable (p : List Byte) (s : State)

@[simp] theorem recordFault_prependOut (k : FaultKind) :
    recordFault (prependOut p s) k = prependOut p (recordFault s k) := rfl

/-- PRN appends at the other end. -/
@[simp] theorem emit_prependOut (v : Byte) : emit (prependOut p s) v = prependOut p (emit s v) := by
  simp only [emit, prependOut, List.append_assoc]

theorem mapNext_prependOut_checked {α : Type} (c : Except FaultKind α) (k : α → Result) :
    mapNext (prependOut p) (checked c s k) = checked c (prependOut p s) fun x => mapNext (prependOut p) (k x) :=
  mapNext_checked c k fun f => (recordFault_prependOut p s f).symm

/-- Nothing reads `out`: every meaning does the same after an earlier output. -/
theorem exec_prependOut (i : Instr) : exec i (prependOut p s) = mapNext (prependOut p) (exec i s) := by
  cases i with
  | hlt => rfl
  | ldi a b => simp only [exec, execLdi, mapNext_prependOut_checked]; rfl
  | prn a => simp only [exec, execPrn, mapNext_prependOut_checked, emit_prependOut]; rfl
  | push a => simp only [exec, execPush, memWrite_byte, checked_ok, mapNext_prependOut_checked]; rfl
  | pop a => simp only [exec, execPop, mapNext_prependOut_checked]; rfl
  | call a => simp only [exec, execCall, memWrite_byte, checked_ok, mapNext_prependOut_checked]; rfl
  | ret => simp only [exec, execRet, mapNext_prependOut_checked]; rfl
  | jeq a | jne a =>
    simp only [exec, execJeq, execJne, jumpWhenEqualIs, mapNext_prependOut_checked, apply_ite (mapNext (prependOut p))]
    rfl
  | jmp a => simp only [exec, execJmp, mapNext_prependOut_checked]; rfl
  | add a b | mul a b | cmp a b =>
    simp only [exec, execAdd, execMul, execCmp, aluOperation, mapNext_prependOut_checked]; rfl

/-- So does a step; a stopped machine stays stopped. -/
theorem step_prependOut : step (prependOut p s) = mapNext (prependOut p) (step s) := by
  cases hfault : s.fault with
  | some k => rw [step_of_fault hfault, step_of_fault (s := prependOut p s) hfault]; rfl
  | none =>
    cases hrun : s.run with
    | false =>
      rw [step_of_not_running hfault hrun, step_of_not_running (s := prependOut p s) hfault hrun]
      rfl
    | true =>
      cases hd : fetchDecode s with
      | ok i =>
        rw [step_of_fetchDecode_ok hrun hfault hd, step_of_fetchDecode_ok (s := prependOut p s) hrun hfault hd]
        exact exec_prependOut p (latchIr s (byteAtPc s 0)) i
      | error k =>
        rw [step_of_fetchDecode_error hrun hfault hd, step_of_fetchDecode_error (s := prependOut p s) hrun hfault hd]
        rfl

/-- What a step appends to `out` does not depend on `out`: it is what the step appends to an empty one. -/
theorem step_with_other_out {t : State} (o : List Byte) (h : step s = .next t) :
    ∃ e, t.out = s.out ++ e ∧ step { s with out := o } = .next { t with out := o ++ e } := by
  have hempty : ∀ p, step { s with out := p } = mapNext (prependOut p) (step { s with out := [] }) := by
    intro p
    rw [← step_prependOut, prependOut, List.append_nil]
  have hs := (hempty s.out).symm.trans h
  cases h0 : step { s with out := [] } with
  | next t₀ =>
    rw [h0] at hs
    cases hs
    exact ⟨t₀.out, rfl, (hempty o).trans (by rw [h0]; rfl)⟩
  | fault | refused => rw [h0] at hs; cases hs

end PrependOut

/-- A step of PRN that completes appends the register its operand byte names. -/
theorem step_prn_out {s t : State} (h : step s = .next t) (hop : byteAtPc s 0 = 0x47) :
    (t.fault ≠ none ∧ t.out = s.out) ∨
      ∃ r : Fin 8, r.val = (byteAtPc s 1).toNat ∧ t.out = s.out ++ [readReg s r] := by
  obtain ⟨hrun, hfault, -⟩ := step_next s t h
  have hrule := h.symm.trans (prnStepsByItsRule s (byteAtPc s 1) ⟨hrun, hfault⟩ hop rfl)
  split at hrule
  · cases hrule; exact .inl ⟨nofun, rfl⟩
  · split at hrule
    · next ha =>
      split at hrule
      · cases hrule; exact .inl ⟨nofun, rfl⟩
      · cases hrule; exact .inr ⟨⟨_, ha⟩, rfl, rfl⟩
    · cases hrule; exact .inl ⟨nofun, rfl⟩

/-- Settles O27: only PRN's meaning emits, by its rule one register, and a change of `out` passes through the step. -/
theorem onlyPrnEmits : Obligations.OnlyPrnEmits := by
  refine ⟨fun s t h hop => ?_, fun s t h hop => step_prn_out h hop, fun s t o h => step_with_other_out s o h⟩
  obtain ⟨-, -, ⟨i, hd, hc⟩ | ⟨k, rfl, -⟩⟩ := step_completes_or_records h
  · refine hc.out_eq fun a hi => hop ?_
    rw [byteAtPc_of_fetchDecode_ok hd, hi]
    rfl
  · rfl

/-! ### What a store leaves for the next fetch and the next pop (R40, R102) -/

/-- Read after write where both addresses are bytes. -/
theorem Memory.read_write_byte (m : Memory) (hm : Memory.wf m) (a b v : Byte) :
    Memory.read (Memory.write m a.toNat v) b.toNat = if b = a then v else Memory.read m b.toNat := by
  simp only [Memory.read_write_of_sorted m hm.1, BitVec.toNat_inj]

/-- Settles O20: the next opcode byte is read from the memory with the one stored byte. -/
theorem storesAreSeenByTheNextFetch : Obligations.StoresAreSeenByTheNextFetch := by
  refine ⟨fun s a sp hm ha hsp hp => ?_, fun s a sp hm ha hsp hp => ?_⟩ <;>
    obtain ⟨hne, rfl⟩ := decSp_eq_ok s hsp
  · exact ⟨_, execPush_completes s ha hne hp, rfl, Memory.read_write_byte s.mem hm _ _ _⟩
  · exact ⟨_, execCall_completes s ha hne hp, rfl, Memory.read_write_byte s.mem hm _ _ _⟩

theorem x_eq_of_readReg_eq {s t : State} (h : ∀ r, readReg t r = readReg s r) : t.x = s.x :=
  Vector.ext fun i hi => h ⟨i, hi⟩

/-- After a PUSH the cell at the stack pointer holds what the register now holds, register 7 included. -/
theorem execPush_top {s : State} {a : Byte} (hm : Memory.wf s.mem) (ha : a.toNat < 8) (hsp : (readSp s).toNat ≠ 0)
    (hp : s.pc.toNat + 2 ≤ 255) :
    ∃ t, execPush a s = .next t ∧ t.pc = s.pc + 2 ∧ readSp t = readSp s - 1 ∧
      (∀ r, r ≠ 7 → readReg t r = readReg s r) ∧
      Memory.read t.mem (readSp t).toNat = readReg t ⟨a.toNat, ha⟩ := by
  have hw : readSp (writeSp s (readSp s - 1)) = readSp s - 1 := readSp_writeSp s _
  refine ⟨_, execPush_completes s ha hsp hp, rfl, hw, fun r hr => readReg_writeReg_other s 7 r _ hr, ?_⟩
  rw [readSp_setPc, readSp_setMem, hw, readReg_setPc, readReg_setMem, readReg_index_writeSp]
  exact Memory.read_write_same s.mem hm _ _

/-- A POP of what the register holds anyway moves the stack pointer and `pc` alone, for register 7 too. -/
theorem execPop_of_top_eq {t : State} {a : Byte} (ha : a.toNat < 8)
    (htop : Memory.read t.mem (readSp t).toNat = readReg t ⟨a.toNat, ha⟩) (hsp : readSp t ≠ 255)
    (hp : t.pc.toNat + 2 ≤ 255) :
    ∃ u, execPop a t = .next u ∧ u.pc = t.pc + 2 ∧ readSp u = readSp t + 1 ∧
      ∀ r, r ≠ 7 → readReg u r = readReg t r := by
  have hpointer : (if a = 7 then readReg t ⟨a.toNat, ha⟩ else readSp t) = readSp t := by
    split
    · next h => subst h; rfl
    · rfl
  have hpointer_ne : (if a = 7 then readReg t ⟨a.toNat, ha⟩ else readSp t) ≠ 255 := by rwa [hpointer]
  refine ⟨_, execPop_completes t ha htop.symm hpointer_ne hp, rfl, ?_, fun r hr => ?_⟩
  · rw [readSp_setPc, readSp_writeSp, hpointer]
  · rw [readReg_setPc, writeSp_eq_writeReg, readReg_writeReg_other _ _ _ _ hr, readReg_writeReg]
    split
    · next h => rw [h]
    · rfl

/-- Settles O58: the POP finds the register's own value on top, so `x[7]` becomes `x[7] - 1 + 1` and the rest is kept. -/
theorem pushThenPopRoundTrips : Obligations.PushThenPopRoundTrips := by
  intro s a hm ha hx hp
  have hsp := toNat_readSp_ne_zero hx
  obtain ⟨t, hpush, htpc, htsp, ht, htop⟩ := execPush_top hm ha hsp (by omega)
  have hfree : readSp t ≠ 255 := by rw [htsp]; bv_omega
  obtain ⟨u, hpop, hupc, husp, hu⟩ := execPop_of_top_eq ha htop hfree (by rw [htpc]; bv_omega)
  refine ⟨t, u, hpush, hpop, x_eq_of_readReg_eq fun r => ?_, ?_⟩
  · by_cases hr : r = 7
    · subst hr
      calc readSp u = readSp s - 1 + 1 := by rw [husp, htsp]
        _ = readSp s := BitVec.sub_add_cancel _ _
    · rw [hu r hr, ht r hr]
  · rw [hupc, htpc, BitVec.add_assoc]
    rfl

/-- Settles O59: the RET reads the cell the CALL stored to, and does not move `x[7]` back (decision D11). -/
theorem callThenRetReturnsAndLeaksOneByte : Obligations.CallThenRetReturnsAndLeaksOneByte := by
  intro s a hm ha hx hp
  refine ⟨_, execCall_completes s ha (toNat_readSp_ne_zero hx) hp, fun u hmem hux => ?_⟩
  have hsp : readSp u = readSp s - 1 := hux.trans (readSp_writeSp s _)
  refine ⟨_, execRet_eq u, ?_, hsp⟩
  rw [setPc_pc, hmem, hsp]
  exact Memory.read_write_same s.mem hm _ _

end Sys2Proof.Machine
